-- ==== Sys2Proof/Word.lean ====
section
/-! DEFINITION. The word types of the block (00_scope.md R8): bytes, 32-bit registers and the 64-bit value pair. -/

namespace Sys2Proof

/-- A byte of a buffer (R8). -/
abbrev Byte := BitVec 8

/-- A register, a command word or a host address (R8, R50). -/
abbrev Word := BitVec 32

/-- The 64-bit VAL (R28). -/
abbrev DWord := BitVec 64

end Sys2Proof
end

