-- ==== Sys2Proof/Syntax.lean ====
section
/-! DEFINITION. The instructions of the block: the 39 commands of 30_encoding.md R73, one constructor each. A command
word carries no immediate, no register number and no address (R72), so no constructor has an argument. -/

namespace Sys2Proof

/-- The 39 commands (R73), in the order of its table. A word that is none of them is ILLEGAL (R75): it has no
constructor, `decode` answers it with an error, and its effect (R215) is `Machine.State.illegalCommand`. -/
inductive Instr where
  /-- HEX.ENC, word 0x00000010 (40_hex.md R102). -/
  | hexEnc
  /-- HEX.DEC, word 0x00000011 (40_hex.md R103). -/
  | hexDec
  /-- HEX.ENCLEN, word 0x00000012 (40_hex.md R104). -/
  | hexEnclen
  /-- HEX.DECLEN, word 0x00000013 (40_hex.md R105). -/
  | hexDeclen
  /-- B32.ENC.STD, word 0x00000020 (41_base32.md R123). -/
  | b32EncStd
  /-- B32.ENC.HEX, word 0x00000120 (41_base32.md R124). -/
  | b32EncHex
  /-- B32.DEC.STD, word 0x00000021 (41_base32.md R125). -/
  | b32DecStd
  /-- B32.DEC.HEX, word 0x00000121 (41_base32.md R126). -/
  | b32DecHex
  /-- B32.ENCLEN, word 0x00000022 (41_base32.md R127). -/
  | b32Enclen
  /-- B32.DECLEN, word 0x00000023 (41_base32.md R128). -/
  | b32Declen
  /-- B64.ENC.STD, word 0x00000030 (42_base64.md R143). -/
  | b64EncStd
  /-- B64.ENC.URL, word 0x00000130 (42_base64.md R144). -/
  | b64EncUrl
  /-- B64.DEC.STD, word 0x00000031 (42_base64.md R145). -/
  | b64DecStd
  /-- B64.DEC.URL, word 0x00000131 (42_base64.md R146). -/
  | b64DecUrl
  /-- B64.ENCLEN, word 0x00000032 (42_base64.md R147). -/
  | b64Enclen
  /-- B64.DECLEN, word 0x00000033 (42_base64.md R148). -/
  | b64Declen
  /-- INT.ENC16.LE, word 0x00000040 (43_integer.md R163). -/
  | intEnc16Le
  /-- INT.ENC16.BE, word 0x00000140 (43_integer.md R164). -/
  | intEnc16Be
  /-- INT.DEC16.LE, word 0x00000041 (43_integer.md R165). -/
  | intDec16Le
  /-- INT.DEC16.BE, word 0x00000141 (43_integer.md R166). -/
  | intDec16Be
  /-- INT.ENC32.LE, word 0x00000042 (43_integer.md R167). -/
  | intEnc32Le
  /-- INT.ENC32.BE, word 0x00000142 (43_integer.md R168). -/
  | intEnc32Be
  /-- INT.DEC32.LE, word 0x00000043 (43_integer.md R169). -/
  | intDec32Le
  /-- INT.DEC32.BE, word 0x00000143 (43_integer.md R170). -/
  | intDec32Be
  /-- INT.ENC64.LE, word 0x00000044 (43_integer.md R171). -/
  | intEnc64Le
  /-- INT.ENC64.BE, word 0x00000144 (43_integer.md R172). -/
  | intEnc64Be
  /-- INT.DEC64.LE, word 0x00000045 (43_integer.md R173). -/
  | intDec64Le
  /-- INT.DEC64.BE, word 0x00000145 (43_integer.md R174). -/
  | intDec64Be
  /-- MAP.BUILD, word 0x00000050 (44_symbol_tables.md R191). -/
  | mapBuild
  /-- MAP.HEX, word 0x00000051 (44_symbol_tables.md R192). -/
  | mapHex
  /-- MAP.B32.STD, word 0x00000052 (44_symbol_tables.md R193). -/
  | mapB32Std
  /-- MAP.B32.HEX, word 0x00000152 (44_symbol_tables.md R194). -/
  | mapB32Hex
  /-- MAP.B64.STD, word 0x00000053 (44_symbol_tables.md R195). -/
  | mapB64Std
  /-- MAP.B64.URL, word 0x00000153 (44_symbol_tables.md R196). -/
  | mapB64Url
  /-- ALPH.HEX, word 0x00000054 (44_symbol_tables.md R197). -/
  | alphHex
  /-- ALPH.B32.STD, word 0x00000055 (44_symbol_tables.md R198). -/
  | alphB32Std
  /-- ALPH.B32.HEX, word 0x00000155 (44_symbol_tables.md R199). -/
  | alphB32Hex
  /-- ALPH.B64.STD, word 0x00000056 (44_symbol_tables.md R200). -/
  | alphB64Std
  /-- ALPH.B64.URL, word 0x00000156 (44_symbol_tables.md R201). -/
  | alphB64Url
deriving DecidableEq, Repr

end Sys2Proof
end

