-- ==== Sys2Proof/Decode.lean ====
section
/-! DEFINITION. Decoding a command word (30_encoding.md R71, R74, R75) and the encoder of R73. -/

namespace Sys2Proof

/-- Why a word is ILLEGAL (R75), by name. -/
inductive Illegal where
  /-- RSV, bits 31..9, is not 0. -/
  | reservedBits
  /-- UNIT is 0 or 6..15. -/
  | reservedUnit
  /-- FN is not assigned in its unit. -/
  | unassignedFn
  /-- VAR is 1 where only VAR = 0 is listed. -/
  | variant
deriving DecidableEq, Repr

/-- FN, bits 3..0 of a command word (R71). -/
def fieldFn (w : Word) : Nat := w.toNat % 16

/-- UNIT, bits 7..4 of a command word (R71). -/
def fieldUnit (w : Word) : Nat := w.toNat / 16 % 16

/-- VAR, bit 8 of a command word (R71). -/
def fieldVar (w : Word) : Nat := w.toNat / 256 % 2

/-- RSV, bits 31..9 of a command word (R71). -/
def fieldRsv (w : Word) : Nat := w.toNat / 512

/-- A function with no variant: VAR must be 0 (R72). -/
def noVariant (var : Nat) (i : Instr) : Except Illegal Instr :=
  if var = 0 then .ok i else .error .variant

/-- A function with two variants, VAR = 0 and VAR = 1 (R72). -/
def twoVariants (var : Nat) (i0 i1 : Instr) : Except Illegal Instr :=
  if var = 0 then .ok i0 else .ok i1

/-- UNIT 1, HEX (R73). -/
def decodeHex (fn var : Nat) : Except Illegal Instr :=
  match fn with
  | 0 => noVariant var .hexEnc
  | 1 => noVariant var .hexDec
  | 2 => noVariant var .hexEnclen
  | 3 => noVariant var .hexDeclen
  | _ => .error .unassignedFn

/-- UNIT 2, B32 (R73). -/
def decodeB32 (fn var : Nat) : Except Illegal Instr :=
  match fn with
  | 0 => twoVariants var .b32EncStd .b32EncHex
  | 1 => twoVariants var .b32DecStd .b32DecHex
  | 2 => noVariant var .b32Enclen
  | 3 => noVariant var .b32Declen
  | _ => .error .unassignedFn

/-- UNIT 3, B64 (R73). -/
def decodeB64 (fn var : Nat) : Except Illegal Instr :=
  match fn with
  | 0 => twoVariants var .b64EncStd .b64EncUrl
  | 1 => twoVariants var .b64DecStd .b64DecUrl
  | 2 => noVariant var .b64Enclen
  | 3 => noVariant var .b64Declen
  | _ => .error .unassignedFn

/-- UNIT 4, INT (R73). -/
def decodeInt (fn var : Nat) : Except Illegal Instr :=
  match fn with
  | 0 => twoVariants var .intEnc16Le .intEnc16Be
  | 1 => twoVariants var .intDec16Le .intDec16Be
  | 2 => twoVariants var .intEnc32Le .intEnc32Be
  | 3 => twoVariants var .intDec32Le .intDec32Be
  | 4 => twoVariants var .intEnc64Le .intEnc64Be
  | 5 => twoVariants var .intDec64Le .intDec64Be
  | _ => .error .unassignedFn

/-- UNIT 5, MAP (R73). -/
def decodeMap (fn var : Nat) : Except Illegal Instr :=
  match fn with
  | 0 => noVariant var .mapBuild
  | 1 => noVariant var .mapHex
  | 2 => twoVariants var .mapB32Std .mapB32Hex
  | 3 => twoVariants var .mapB64Std .mapB64Url
  | 4 => noVariant var .alphHex
  | 5 => twoVariants var .alphB32Std .alphB32Hex
  | 6 => twoVariants var .alphB64Std .alphB64Url
  | _ => .error .unassignedFn

/-- Decoding a command word: total on the 2^32 words, an instruction or a named rejection (R74). -/
def decode (w : Word) : Except Illegal Instr :=
  if fieldRsv w ≠ 0 then .error .reservedBits
  else match fieldUnit w with
  | 1 => decodeHex (fieldFn w) (fieldVar w)
  | 2 => decodeB32 (fieldFn w) (fieldVar w)
  | 3 => decodeB64 (fieldFn w) (fieldVar w)
  | 4 => decodeInt (fieldFn w) (fieldVar w)
  | 5 => decodeMap (fieldFn w) (fieldVar w)
  | _ => .error .reservedUnit

/-- The command word of an instruction, from the table of R73. -/
def encode : Instr → Word
  | .hexEnc => 0x00000010#32
  | .hexDec => 0x00000011#32
  | .hexEnclen => 0x00000012#32
  | .hexDeclen => 0x00000013#32
  | .b32EncStd => 0x00000020#32
  | .b32EncHex => 0x00000120#32
  | .b32DecStd => 0x00000021#32
  | .b32DecHex => 0x00000121#32
  | .b32Enclen => 0x00000022#32
  | .b32Declen => 0x00000023#32
  | .b64EncStd => 0x00000030#32
  | .b64EncUrl => 0x00000130#32
  | .b64DecStd => 0x00000031#32
  | .b64DecUrl => 0x00000131#32
  | .b64Enclen => 0x00000032#32
  | .b64Declen => 0x00000033#32
  | .intEnc16Le => 0x00000040#32
  | .intEnc16Be => 0x00000140#32
  | .intDec16Le => 0x00000041#32
  | .intDec16Be => 0x00000141#32
  | .intEnc32Le => 0x00000042#32
  | .intEnc32Be => 0x00000142#32
  | .intDec32Le => 0x00000043#32
  | .intDec32Be => 0x00000143#32
  | .intEnc64Le => 0x00000044#32
  | .intEnc64Be => 0x00000144#32
  | .intDec64Le => 0x00000045#32
  | .intDec64Be => 0x00000145#32
  | .mapBuild => 0x00000050#32
  | .mapHex => 0x00000051#32
  | .mapB32Std => 0x00000052#32
  | .mapB32Hex => 0x00000152#32
  | .mapB64Std => 0x00000053#32
  | .mapB64Url => 0x00000153#32
  | .alphHex => 0x00000054#32
  | .alphB32Std => 0x00000055#32
  | .alphB32Hex => 0x00000155#32
  | .alphB64Std => 0x00000056#32
  | .alphB64Url => 0x00000156#32

/-- The instruction the decoder reads from a word given by its bits, bits `nbits` and above being 0. A command is one
32-bit word (R70), so there is nothing to lay out in bytes. -/
def decodeTableWord (nbits w : Nat) : Option Instr :=
  (decode (BitVec.ofNat 32 (w % 2 ^ nbits))).toOption

end Sys2Proof
end

