-- ==== Sys2Proof/Machine/Flags.lean ====
section
/-! DEFINITION. The fields of STATUS, the block's only flags (10_state.md R25, R30; 60_exceptions.md R213). -/

namespace Sys2Proof.Machine

/-- The status codes (R213); codes 7 to 15 are never produced. -/
inductive StatusCode where
  | ok
  | invalidByte
  | oddLength
  | invalidLength
  | illegalCmd
  | range
  | alphabet
deriving DecidableEq, Repr

/-- The value of a status code in STATUS[3:0] (R213). -/
def StatusCode.bits : StatusCode → BitVec 4
  | .ok => 0
  | .invalidByte => 1
  | .oddLength => 2
  | .invalidLength => 3
  | .illegalCmd => 4
  | .range => 5
  | .alphabet => 6

/-- The STATUS word a command leaves: DONE = 1, then the reserved bits 30..16 at 0, BYTE, the reserved bits 7..4 at 0
and CODE (R25, R211, R212). -/
def statusWord (code : StatusCode) (byte : Byte) : Word :=
  1#1 ++ 0#15 ++ byte ++ 0#4 ++ code.bits

/-- STATUS[3:0], CODE (R25). -/
def statusCode (w : Word) : BitVec 4 := w.extractLsb' 0 4

/-- STATUS[15:8], BYTE (R25). -/
def statusByte (w : Word) : Byte := w.extractLsb' 8 8

/-- STATUS[31], DONE (R25). -/
def statusDone (w : Word) : Bool := w.getLsbD 31

/-- The reserved bits of STATUS, [30:16] and [7:4] (R25). -/
def statusReserved (w : Word) : BitVec 19 := w.extractLsb' 16 15 ++ w.extractLsb' 4 4

end Sys2Proof.Machine
end

