-- ==== Sys2Proof/Config.lean ====
section
/-! DEFINITION. What an implementation fixes (00_scope.md R7) and the free values of the spec (R214, R240).
The `opaque` constants have no body: a theorem about them holds whatever they are. -/

namespace Sys2Proof

/-- The open choice behind `Config.srcCap` (R7, D9; log entry 4). -/
opaque Config.srcCapChoice : Nat

/-- The open choice behind `Config.dstCap` (R7, D9; log entry 4). -/
opaque Config.dstCapChoice : Nat

/-- `SRC_CAP`: any number with `64 <= SRC_CAP <= 2^30`, and each of them (R7; log entry 4). -/
def Config.srcCap : Nat := 64 + Config.srcCapChoice % (2 ^ 30 - 63)

/-- `DST_CAP`: any number with `256 <= DST_CAP <= 2^30`, and each of them (R7; log entry 4). -/
def Config.dstCap : Nat := 256 + Config.dstCapChoice % (2 ^ 30 - 255)

/-- `CCC_BASE`, the platform address the block's address space starts at. "no rule of the block reads it" (R7, U7):
every address of the model is an offset from it (R51; log entry 5). -/
opaque Config.cccBase : Nat

/-- Free value: the byte that reset number `epoch` leaves in `SRC[i]` (R31, R240, U4; log entry 6). -/
opaque Config.resetSrcByte (epoch i : Nat) : Byte

/-- Free value: the byte that reset number `epoch` leaves in `DST[i]` (R32, R240, U4; log entry 6). -/
opaque Config.resetDstByte (epoch i : Nat) : Byte

/-- Free value: draw number `k` of a destination byte that a decode error leaves unspecified
(R214, U3; log entry 7). -/
opaque Config.errorDstByte (k : Nat) : Byte

end Sys2Proof
end

