-- ==== Sys2Proof/Machine/Access.lean ====
section
/-! DEFINITION. The host's side of the bus: what the host sends, what the block answers, the address map
(20_memory.md R51) and the legal access forms (R52). -/

namespace Sys2Proof.Machine

/-- The size of a host access: the four that R52 speaks of. -/
inductive Width where
  | b1
  | b2
  | b4
  | b8
deriving DecidableEq, Repr

/-- One thing the host does (R14, R231, R241). A write carries its datum in the low bits of `data`: 8, 16, 32 or 64
of them by its width (log entry 10). -/
inductive HostEvent where
  /-- `MemRead(addr, n)` of R10. -/
  | read (width : Width) (addr : Word)
  /-- `MemWrite(addr, n, v)` of R10. -/
  | write (width : Width) (addr : Word) (data : DWord)
  /-- A reset of the block (R241; log entry 11). -/
  | reset
deriving DecidableEq, Repr

/-- What the block answered to the last host event (R231; log entry 3). -/
inductive Reply where
  /-- No access has been answered since reset. -/
  | nothing
  /-- A write was taken. -/
  | ack
  /-- The word a register-window read returns. -/
  | word (w : Word)
  /-- The byte a read outside the register window returns. -/
  | byte (b : Byte)
deriving DecidableEq, Repr

/-- The eight registers of the register window (10_state.md R20 and section 2). -/
inductive Reg where
  | cmd
  | status
  | srcLen
  | dstLen
  | valLo
  | valHi
  | srcCapr
  | dstCapr
deriving DecidableEq, Repr

/-- What stands at an address of the host address space (R51). -/
inductive Place where
  /-- A register. -/
  | reg (r : Reg)
  /-- `SRC[i]`, with `i < SRC_CAP`. -/
  | src (i : Nat)
  /-- `DST[i]`, with `i < DST_CAP`. -/
  | dst (i : Nat)
  /-- A reserved address: reads 0, ignores writes (R53). -/
  | reserved
deriving DecidableEq, Repr

/-- The bytes of an access. -/
def Width.bytes : Width → Nat
  | .b1 => 1
  | .b2 => 2
  | .b4 => 4
  | .b8 => 8

/-- The offset of a register (10_state.md section 2). -/
def Reg.offset : Reg → Nat
  | .cmd => 0x000
  | .status => 0x004
  | .srcLen => 0x008
  | .dstLen => 0x00C
  | .valLo => 0x010
  | .valHi => 0x014
  | .srcCapr => 0x018
  | .dstCapr => 0x01C

/-- The address of CMD (10_state.md section 2). -/
def cmdAddr : Word := 0x00000000#32

/-- The end of the register window, 0x0000_0000 - 0x0000_0FFF (R51). -/
def windowEnd : Nat := 0x1000

/-- `SRC_BASE` (R51). -/
def srcBase : Nat := 0x40000000

/-- `DST_BASE` (R51). -/
def dstBase : Nat := 0x80000000

/-- The two legal forms of a host access: 4 bytes, 4-aligned, inside the register window, or 1 byte outside it
(R52). -/
def accessLegal (width : Width) (addr : Word) : Bool :=
  if addr.toNat < windowEnd then decide (width = .b4 ∧ addr.toNat % 4 = 0) else decide (width = .b1)

/-- The register at an offset, if one starts there (R51). -/
def regAt (offset : Nat) : Option Reg :=
  match offset with
  | 0x000 => some .cmd
  | 0x004 => some .status
  | 0x008 => some .srcLen
  | 0x00C => some .dstLen
  | 0x010 => some .valLo
  | 0x014 => some .valHi
  | 0x018 => some .srcCapr
  | 0x01C => some .dstCapr
  | _ => none

/-- The address map (R51), for given capacities. -/
def locate (srcCap dstCap : Nat) (addr : Word) : Place :=
  let a := addr.toNat
  if a < windowEnd then
    match regAt a with
    | some r => .reg r
    | none => .reserved
  else if srcBase ≤ a ∧ a < srcBase + 2 ^ 30 ∧ a - srcBase < srcCap then .src (a - srcBase)
  else if dstBase ≤ a ∧ a < dstBase + 2 ^ 30 ∧ a - dstBase < dstCap then .dst (a - dstBase)
  else .reserved

end Sys2Proof.Machine
end

