-- ==== Sys2Proof/Machine/State.lean ====
section
/-! DEFINITION. The state of the block (10_state.md R20) as plain data, the ways a step can stop, and the state after
reset (70_reset_and_hazards.md R240). -/

namespace Sys2Proof.Machine

/-- The contents of a buffer: the bytes written to it since the last reset, each with its index, the indexes strictly
rising. An unlisted index has no written byte (log entry 8). -/
abbrev Memory := List Host.Cell

/-- The canonical form: indexes strictly rising (log entry 8). -/
abbrev Memory.wf (m : Memory) : Prop := m.Pairwise (fun a b => a.1 < b.1)

/-- The state of the block and of its host's pending accesses. -/
structure State where
  /-- CMD, the last command word written (R24). -/
  cmd : Word
  /-- STATUS, the outcome of the last command (R25). -/
  status : Word
  /-- SRC_LEN, the number n of input bytes (R26). -/
  srcLen : Word
  /-- DST_LEN, the number of bytes the last command wrote (R27). -/
  dstLen : Word
  /-- VAL_LO, VAL[31:0] (R28). -/
  valLo : Word
  /-- VAL_HI, VAL[63:32] (R28). -/
  valHi : Word
  /-- SRC_CAPR, hardwired to SRC_CAP (R29; log entry 4). -/
  srcCapr : Word
  /-- DST_CAPR, hardwired to DST_CAP (R29; log entry 4). -/
  dstCapr : Word
  /-- SRC_BUF (R31). -/
  src : Memory
  /-- DST_BUF (R32). -/
  dst : Memory
  /-- Model's own: how many later resets there have been; it picks the draws of R240 (log entry 6). -/
  epoch : Nat
  /-- Model's own: how many bytes have been drawn after decode errors (R214; log entry 7). -/
  draws : Nat
  /-- Model's own: the host's accesses still to come, oldest first (R62; log entry 1). -/
  pending : List HostEvent
  /-- Model's own: the answer to the last host event (R231; log entry 3). -/
  reply : Reply
deriving DecidableEq, Repr

/-- "The block has no `fault` and no `stuck` behaviour" (93_implementation_defined.md section 2): no step faults. -/
inductive Fault where
deriving DecidableEq, Repr

/-- Why a step has no meaning. -/
inductive Refusal where
  /-- Raised by an arm of `exec` for a command without a meaning yet (safe). No arm does. -/
  | notModelled (mnemonic : String)
  /-- Raised by `step` for a host access in a form other than the two legal ones, a bus error: "A model refuses such an
  access (the host step has no meaning)" (20_memory.md R52; safe). -/
  | busError
deriving DecidableEq, Repr

/-- The state after reset (R240): every register 0 but the hardwired capacities, no byte of a buffer written (each
reads as its draw), no host access pending (log entries 1, 3, 6 and 7 for the model's own fields). -/
def State.reset : State where
  cmd := 0
  status := 0
  srcLen := 0
  dstLen := 0
  valLo := 0
  valHi := 0
  srcCapr := BitVec.ofNat 32 Config.srcCap
  dstCapr := BitVec.ofNat 32 Config.dstCap
  src := []
  dst := []
  epoch := 0
  draws := 0
  pending := []
  reply := .nothing

end Sys2Proof.Machine
end

