-- ==== Sys2Proof/Machine/Ops.lean ====
section
/-! DEFINITION. The named operations over buffers and registers, and the two ends of a command, `finish` and `raise`
(00_scope.md R10; 60_exceptions.md R211, R212, R214). The block has no trap and no return from one (R218, R219): `raise`
is the one shared operation that ends a command with an error. -/

namespace Sys2Proof.Machine

/-! ### Buffers -/

/-- The byte written at an index since reset, if any. -/
def Memory.read? : Memory → Nat → Option Byte
  | [], _ => none
  | c :: m, i => if c.1 = i then some c.2 else Memory.read? m i

/-- Write one byte. -/
def Memory.write : Memory → Nat → Byte → Memory
  | [], i, b => [(i, b)]
  | c :: m, i, b =>
    if i < c.1 then (i, b) :: c :: m
    else if i = c.1 then (i, b) :: m
    else c :: Memory.write m i b

/-- The cells that hold a byte sequence from an index on. -/
def Memory.cellsFrom : Nat → List Byte → Memory
  | _, [] => []
  | i, b :: bs => (i, b) :: Memory.cellsFrom (i + 1) bs

/-- Write a byte sequence to the indexes `[0, out.length)`; every engine write has this form (R60, R61). -/
def Memory.writePrefix (m : Memory) (out : List Byte) : Memory :=
  Memory.cellsFrom 0 out ++ m.filter (fun c => out.length ≤ c.1)

/-- `SRC[i]`: the byte written since reset, else the draw of R240 (R10, R31). -/
def State.srcByte (s : State) (i : Nat) : Byte :=
  (s.src.read? i).getD (Config.resetSrcByte s.epoch i)

/-- `DST[i]`: the byte written since reset, else the draw of R240 (R10, R32). -/
def State.dstByte (s : State) (i : Nat) : Byte :=
  (s.dst.read? i).getD (Config.resetDstByte s.epoch i)

/-- `SRC[i] <- b`, a host write (R54). -/
def State.writeSrc (s : State) (i : Nat) (b : Byte) : State :=
  { s with src := s.src.write i b }

/-- `for i in [0, len(out)): DST[i] <- out[i]` (R10). -/
def State.writeDst (s : State) (out : List Byte) : State :=
  { s with dst := s.dst.writePrefix out }

/-- The bytes `DST[0 .. d)` after a decode error: "a model gives each such byte any value (a draw)" (R214; log
entry 7). -/
def State.drawDst (s : State) (d : Nat) : State :=
  { s with
    dst := s.dst.writePrefix ((List.range d).map fun j => Config.errorDstByte (s.draws + j))
    draws := s.draws + d }

/-! ### Registers -/

/-- `x[NAME]` of the register window (R10, R24 to R29). -/
def State.readReg (s : State) : Reg → Word
  | .cmd => s.cmd
  | .status => s.status
  | .srcLen => s.srcLen
  | .dstLen => s.dstLen
  | .valLo => s.valLo
  | .valHi => s.valHi
  | .srcCapr => s.srcCapr
  | .dstCapr => s.dstCapr

/-- A host write of a word to a register, without the command that a write to CMD starts: CMD, SRC_LEN, VAL_LO and
VAL_HI take the word, the read-only registers ignore it (R24, R54). -/
def State.writeReg (s : State) (r : Reg) (w : Word) : State :=
  match r with
  | .cmd => { s with cmd := w }
  | .srcLen => { s with srcLen := w }
  | .valLo => { s with valLo := w }
  | .valHi => { s with valHi := w }
  | .status => s
  | .dstLen => s
  | .srcCapr => s
  | .dstCapr => s

/-- `x[VAL] <- v`, both halves (R28). -/
def State.writeVal (s : State) (v : DWord) : State :=
  { s with valLo := v.extractLsb' 0 32, valHi := v.extractLsb' 32 32 }

/-! ### The ends of a command -/

/-- `finish(len)`: STATUS = DONE, OK; DST_LEN = len (R211). -/
def State.finish (s : State) (len : Nat) : State :=
  { s with status := statusWord .ok 0, dstLen := BitVec.ofNat 32 len }

/-- `raise E(b)`: STATUS = DONE, E, b; DST_LEN = 0 (R212). -/
def State.raise (s : State) (code : StatusCode) (b : Byte) : State :=
  { s with status := statusWord code b, dstLen := 0 }

/-- The effect of a word that decodes to ILLEGAL (R215). -/
def State.illegalCommand (s : State) : State := s.raise .illegalCmd 0

/-- A codec's error: "Err(code, byte)" of R101, R122 and R142. -/
inductive CodecError where
  | invalidByte (b : Byte)
  | oddLength
  | invalidLength
deriving DecidableEq, Repr

/-- The end of an encode command: its RANGE checks, then its `len` output bytes (R102, R123, R143, R216). -/
def State.endEncode (s : State) (n len : Nat) (out : List Byte) : State :=
  if s.srcCapr.toNat < n then s.raise .range 0
  else if s.dstCapr.toNat < len then s.raise .range 0
  else (s.writeDst out).finish len

/-- The end of a decode command with decode bound `bound`: its RANGE checks, then the codec's error or its output
(R103, R125, R145, R214, R216). After INVALID_BYTE and ODD_LENGTH `DST[0 .. bound)` is drawn; after INVALID_LENGTH
nothing has been written. -/
def State.endDecode (s : State) (n bound : Nat) (r : Except CodecError (List Byte)) : State :=
  if s.srcCapr.toNat < n then s.raise .range 0
  else if s.dstCapr.toNat < bound then s.raise .range 0
  else match r with
    | .error (.invalidByte b) => (s.drawDst bound).raise .invalidByte b
    | .error .oddLength => (s.drawDst bound).raise .oddLength 0
    | .error .invalidLength => s.raise .invalidLength 0
    | .ok out => (s.writeDst out).finish out.length

/-- The end of a length command: the result in VAL, no destination byte (R104, D22). -/
def State.endLength (s : State) (v : Nat) : State :=
  (s.writeVal (BitVec.ofNat 64 v)).finish 0

/-- The end of a command that writes a constant number of bytes and has no error (R162, R192 to R201). -/
def State.endCopy (s : State) (out : List Byte) : State :=
  (s.writeDst out).finish out.length

/-! ### Reset -/

/-- A later reset: the state of R240 with the buffer bytes drawn anew; the capacities are hardwired (R29), and the
host's remaining accesses are the host's (R241; log entry 11). -/
def State.hostReset (s : State) : State :=
  { State.reset with
    srcCapr := s.srcCapr
    dstCapr := s.dstCapr
    epoch := s.epoch + 1
    draws := s.draws
    pending := s.pending }

end Sys2Proof.Machine
end

