-- ==== Sys2Proof/Machine/Operands.lean ====
section
/-! DEFINITION. The operands of commands: SRC_LEN, the input bytes and VAL (30_encoding.md R72; 20_memory.md R60), and
the rounding the rules use. -/

namespace Sys2Proof.Machine

/-- `n`, the unsigned number in SRC_LEN (R26). -/
def State.n (s : State) : Nat := s.srcLen.toNat

/-- `SRC[0 .. n)` (R10, R11). -/
def State.srcBytes (s : State) (n : Nat) : List Byte := (List.range n).map s.srcByte

/-- VAL = VAL_HI : VAL_LO (R28). -/
def State.val (s : State) : DWord := s.valHi ++ s.valLo

/-- `ceil(a/b)` (R9). -/
def ceilDiv (a b : Nat) : Nat := (a + b - 1) / b

end Sys2Proof.Machine
end

