-- ==== Sys2Proof/Machine/Tables.lean ====
section
/-! DEFINITION. The ten constant tables of the block, read-only memories (10_state.md section 5, R34 to R42). They are
constants and no field of State: "reset does not touch them, and no command writes them" (log entry 9). -/

namespace Sys2Proof.Machine

/-- The ASCII code of a character (R9). -/
def ascii (c : Char) : Byte := BitVec.ofNat 8 c.toNat

/-- The codes of `n` consecutive characters from `c` on. -/
def asciiRun (c : Char) (n : Nat) : List Byte := (List.range n).map fun i => BitVec.ofNat 8 (c.toNat + i)

/-- The padding symbol `=`, 0x3D (R8). -/
def padByte : Byte := 0x3D#8

/-- The sentinel of a decode map (R8, R40). -/
def sentinel : Byte := 0xFF#8

/-- HEX_ALPH: 0-9, a-f (R34). -/
def hexAlph : List Byte := asciiRun '0' 10 ++ asciiRun 'a' 6

/-- B32_STD_ALPH: A-Z, 2-7 (R35). -/
def b32StdAlph : List Byte := asciiRun 'A' 26 ++ asciiRun '2' 6

/-- B32_HEX_ALPH: 0-9, A-V (R36). -/
def b32HexAlph : List Byte := asciiRun '0' 10 ++ asciiRun 'A' 22

/-- B64_STD_ALPH: A-Z, a-z, 0-9, '+', '/' (R37). -/
def b64StdAlph : List Byte :=
  asciiRun 'A' 26 ++ asciiRun 'a' 26 ++ asciiRun '0' 10 ++ [ascii '+', ascii '/']

/-- B64_URL_ALPH: as B64_STD_ALPH but 62 is '-' and 63 is '_' (R38). -/
def b64UrlAlph : List Byte :=
  asciiRun 'A' 26 ++ asciiRun 'a' 26 ++ asciiRun '0' 10 ++ [ascii '-', ascii '_']

/-- `A[v]`, the symbol for a value (R11). -/
def symbol (alph : List Byte) (v : Nat) : Byte := alph.getD v 0

/-- `Inverse(A)`, the decode map of an alphabet, as the entry for a byte (R40, R41). -/
def inverse (alph : List Byte) (b : Byte) : Byte :=
  if b ∈ alph then BitVec.ofNat 8 (alph.idxOf b) else sentinel

/-- HEX_DMAP as the entry for a byte: case insensitive, not the inverse of HEX_ALPH (R42, C2). -/
def hexDmap (b : Byte) : Byte :=
  if 0x30 ≤ b.toNat ∧ b.toNat ≤ 0x39 then BitVec.ofNat 8 (b.toNat - 0x30)
  else if 0x61 ≤ b.toNat ∧ b.toNat ≤ 0x66 then BitVec.ofNat 8 (b.toNat - 0x61 + 10)
  else if 0x41 ≤ b.toNat ∧ b.toNat ≤ 0x46 then BitVec.ofNat 8 (b.toNat - 0x41 + 10)
  else sentinel

/-- A decode map as its 256 bytes (R11). -/
def mapTable (dmap : Byte → Byte) : List Byte := (List.range 256).map fun b => dmap (BitVec.ofNat 8 b)

end Sys2Proof.Machine
end

