-- ==== Sys2Proof/Machine/Regroup.lean ====
section
/-! DEFINITION. The regrouping that base32 and base64 share (41_base32.md R121, R122; 42_base64.md R141, R142): groups
of bytes taken as a big-endian number and split into symbols, and back. A geometry gives the two units their numbers. -/

namespace Sys2Proof.Machine

/-- The numbers of a regrouping unit. -/
structure Geometry where
  /-- Bytes in a full group. -/
  bytes : Nat
  /-- Symbols in a group. -/
  symbols : Nat
  /-- Bits in a symbol. -/
  bits : Nat
  /-- The numbers of data symbols a padded final group may have. -/
  padded : List Nat
deriving DecidableEq, Repr

/-- Split a sequence into groups of `k`, the last one short; the first argument bounds their number. -/
def groupsUpTo {α : Type} (k : Nat) : Nat → List α → List (List α)
  | 0, _ => []
  | f + 1, xs => if xs.isEmpty then [] else xs.take k :: groupsUpTo k f (xs.drop k)

/-- The groups of `k` of a sequence, in order, the last one short. -/
def groupsOf {α : Type} (k : Nat) (xs : List α) : List (List α) := groupsUpTo k xs.length xs

/-- The number a byte sequence is in big-endian order (R58). -/
def beValue (bs : List Byte) : Nat := bs.foldl (fun v b => v * 256 + b.toNat) 0

/-- The `m` most significant bytes of a number of `w` bytes, most significant first. -/
def beBytes (w m v : Nat) : List Byte := (List.range m).map fun i => BitVec.ofNat 8 (v / 2 ^ (8 * (w - 1 - i)))

/-- One group of an encode: `r` bytes, left-justified, give `ceil(8r/bits)` symbols and then padding (R121, R141). -/
def encodeGroup (g : Geometry) (alph : List Byte) (bs : List Byte) : List Byte :=
  let v := beValue bs * 2 ^ (8 * (g.bytes - bs.length))
  let k := ceilDiv (8 * bs.length) g.bits
  (List.range g.symbols).map fun j =>
    if j < k then symbol alph (v / 2 ^ (g.bits * (g.symbols - 1 - j)) % 2 ^ g.bits) else padByte

/-- An encode, group by group (R121, R141). -/
def encodeGroups (g : Geometry) (alph s : List Byte) : List Byte :=
  (groupsOf g.bytes s).flatMap (encodeGroup g alph)

/-- `v <- v*2^bits + M[c]` over data symbols in order; the first one outside the alphabet is the error (R122, R142). -/
def accumulate (bits : Nat) (dmap : Byte → Byte) : Nat → List Byte → Except CodecError Nat
  | v, [] => .ok v
  | v, c :: cs =>
    if dmap c = sentinel then .error (.invalidByte c)
    else accumulate bits dmap (v * 2 ^ bits + (dmap c).toNat) cs

/-- A group other than the final one: every symbol carries data (R122, R142). -/
def decodeFull (g : Geometry) (dmap : Byte → Byte) (t : List Byte) : Except CodecError (List Byte) :=
  match accumulate g.bits dmap 0 t with
  | .error e => .error e
  | .ok v => .ok (beBytes g.bytes g.bytes v)

/-- The final group: `k` data symbols; the first `=`, if any, must stand where encode puts it; each later symbol must
be `=` or in the alphabet and contributes nothing; the low bits are discarded unchecked (R122, R142, D18, D19, D20). -/
def decodeFinal (g : Geometry) (dmap : Byte → Byte) (t : List Byte) : Except CodecError (List Byte) :=
  let data := t.takeWhile (fun c => c ≠ padByte)
  let k := data.length
  match accumulate g.bits dmap 0 data with
  | .error e => .error e
  | .ok v =>
    if k < g.symbols ∧ k ∉ g.padded then .error (.invalidByte padByte)
    else match (t.drop (k + 1)).find? (fun c => c ≠ padByte ∧ dmap c = sentinel) with
      | some c => .error (.invalidByte c)
      | none => .ok (beBytes g.bytes (g.bits * k / 8) (v * 2 ^ (g.bits * (g.symbols - k))))

/-- The groups of a decode in order, the last one as the final group; the first error ends it (R122, R142). -/
def decodeGroups (g : Geometry) (dmap : Byte → Byte) : List (List Byte) → Except CodecError (List Byte)
  | [] => .ok []
  | [t] => decodeFinal g dmap t
  | t :: u :: ts =>
    match decodeFull g dmap t with
    | .error e => .error e
    | .ok a =>
      match decodeGroups g dmap (u :: ts) with
      | .error e => .error e
      | .ok b => .ok (a ++ b)

end Sys2Proof.Machine
end

