-- ==== Sys2Proof/Machine/Base32.lean ====
section
/-! DEFINITION. The base32 unit (41_base32.md). -/

namespace Sys2Proof.Machine

/-- 5 bytes to 8 symbols of 5 bits; a padded final group has one of the listed numbers of data
symbols (R121, R122). -/
def b32Geometry : Geometry where
  bytes := 5
  symbols := 8
  bits := 5
  padded := [2, 4, 5, 7]

/-- B32Encode (R121). -/
def b32Encode (alph s : List Byte) : List Byte := encodeGroups b32Geometry alph s

/-- B32Decode: the length is a multiple of 8, checked first; the empty input decodes to the empty output
(R122). -/
def b32Decode (alph s : List Byte) : Except CodecError (List Byte) :=
  if s.length % 8 ≠ 0 then .error .invalidLength
  else decodeGroups b32Geometry (inverse alph) (groupsOf 8 s)

/-- `ceil(n/5) * 8`, the encoded length (R127). -/
def b32EncLen (n : Nat) : Nat := ceilDiv n 5 * 8

/-- `(n/8) * 5`, the decode bound (R128). -/
def b32DecLen (n : Nat) : Nat := n / 8 * 5

/-- B32.ENC.STD (R123). -/
def execB32EncStd (s : State) : Host.Outcome State Fault Refusal :=
  .next (s.endEncode s.n (b32EncLen s.n) (b32Encode b32StdAlph (s.srcBytes s.n)))

/-- B32.ENC.HEX (R124). -/
def execB32EncHex (s : State) : Host.Outcome State Fault Refusal :=
  .next (s.endEncode s.n (b32EncLen s.n) (b32Encode b32HexAlph (s.srcBytes s.n)))

/-- B32.DEC.STD (R125). -/
def execB32DecStd (s : State) : Host.Outcome State Fault Refusal :=
  .next (s.endDecode s.n (b32DecLen s.n) (b32Decode b32StdAlph (s.srcBytes s.n)))

/-- B32.DEC.HEX (R126). -/
def execB32DecHex (s : State) : Host.Outcome State Fault Refusal :=
  .next (s.endDecode s.n (b32DecLen s.n) (b32Decode b32HexAlph (s.srcBytes s.n)))

/-- B32.ENCLEN (R127). -/
def execB32Enclen (s : State) : Host.Outcome State Fault Refusal :=
  .next (s.endLength (b32EncLen s.n))

/-- B32.DECLEN (R128). -/
def execB32Declen (s : State) : Host.Outcome State Fault Refusal :=
  .next (s.endLength (b32DecLen s.n))

end Sys2Proof.Machine
end

