-- ==== Sys2Proof/Machine/Base64.lean ====
section
/-! DEFINITION. The base64 unit (42_base64.md). -/

namespace Sys2Proof.Machine

/-- 3 bytes to 4 symbols of 6 bits; a padded final group has one of the listed numbers of data
symbols (R141, R142). -/
def b64Geometry : Geometry where
  bytes := 3
  symbols := 4
  bits := 6
  padded := [2, 3]

/-- B64Encode (R141). -/
def b64Encode (alph s : List Byte) : List Byte := encodeGroups b64Geometry alph s

/-- B64Decode: the length is a positive multiple of 4, checked first
(R142). -/
def b64Decode (alph s : List Byte) : Except CodecError (List Byte) :=
  if s.length = 0 ∨ s.length % 4 ≠ 0 then .error .invalidLength
  else decodeGroups b64Geometry (inverse alph) (groupsOf 4 s)

/-- `ceil(n/3) * 4`, the encoded length (R147). -/
def b64EncLen (n : Nat) : Nat := ceilDiv n 3 * 4

/-- `(n/4) * 3`, the decode bound (R148). -/
def b64DecLen (n : Nat) : Nat := n / 4 * 3

/-- B64.ENC.STD (R143). -/
def execB64EncStd (s : State) : Host.Outcome State Fault Refusal :=
  .next (s.endEncode s.n (b64EncLen s.n) (b64Encode b64StdAlph (s.srcBytes s.n)))

/-- B64.ENC.URL (R144). -/
def execB64EncUrl (s : State) : Host.Outcome State Fault Refusal :=
  .next (s.endEncode s.n (b64EncLen s.n) (b64Encode b64UrlAlph (s.srcBytes s.n)))

/-- B64.DEC.STD (R145). -/
def execB64DecStd (s : State) : Host.Outcome State Fault Refusal :=
  .next (s.endDecode s.n (b64DecLen s.n) (b64Decode b64StdAlph (s.srcBytes s.n)))

/-- B64.DEC.URL (R146). -/
def execB64DecUrl (s : State) : Host.Outcome State Fault Refusal :=
  .next (s.endDecode s.n (b64DecLen s.n) (b64Decode b64UrlAlph (s.srcBytes s.n)))

/-- B64.ENCLEN (R147). -/
def execB64Enclen (s : State) : Host.Outcome State Fault Refusal :=
  .next (s.endLength (b64EncLen s.n))

/-- B64.DECLEN (R148). -/
def execB64Declen (s : State) : Host.Outcome State Fault Refusal :=
  .next (s.endLength (b64DecLen s.n))

end Sys2Proof.Machine
end

