-- ==== Sys2Proof/Machine/Hex.lean ====
section
/-! DEFINITION. The hex unit (40_hex.md). -/

namespace Sys2Proof.Machine

/-- HexEncode: high nibble first, then low nibble, each looked up in HEX_ALPH (R100). -/
def hexEncode (s : List Byte) : List Byte :=
  s.flatMap fun b => [symbol hexAlph (b.toNat / 16), symbol hexAlph (b.toNat % 16)]

/-- HexDecode: pair by pair, the high symbol checked first; an odd last symbol is validated before ODD_LENGTH is
reported (R101). -/
def hexDecode : List Byte → Except CodecError (List Byte)
  | [] => .ok []
  | [c] => if hexDmap c = sentinel then .error (.invalidByte c) else .error .oddLength
  | p :: q :: rest =>
    if hexDmap p = sentinel then .error (.invalidByte p)
    else if hexDmap q = sentinel then .error (.invalidByte q)
    else match hexDecode rest with
      | .error e => .error e
      | .ok out => .ok (BitVec.ofNat 8 ((hexDmap p).toNat * 16 + (hexDmap q).toNat) :: out)

/-- HEX.ENC (R102). -/
def execHexEnc (s : State) : Host.Outcome State Fault Refusal :=
  .next (s.endEncode s.n (2 * s.n) (hexEncode (s.srcBytes s.n)))

/-- HEX.DEC (R103). -/
def execHexDec (s : State) : Host.Outcome State Fault Refusal :=
  .next (s.endDecode s.n (s.n / 2) (hexDecode (s.srcBytes s.n)))

/-- HEX.ENCLEN (R104). -/
def execHexEnclen (s : State) : Host.Outcome State Fault Refusal :=
  .next (s.endLength (2 * s.n))

/-- HEX.DECLEN (R105). -/
def execHexDeclen (s : State) : Host.Outcome State Fault Refusal :=
  .next (s.endLength (s.n / 2))

end Sys2Proof.Machine
end

