-- ==== Sys2Proof/Machine/Integer.lean ====
section
/-! DEFINITION. The integer byte-order unit (43_integer.md). -/

namespace Sys2Proof.Machine

/-- A byte order, chosen by VAR (R160). -/
inductive ByteOrder where
  /-- Little-endian, least significant byte first. -/
  | le
  /-- Big-endian, most significant byte first. -/
  | be
deriving DecidableEq, Repr

/-- Byte `i` of a value: bits 8i+7..8i. -/
def valueByte (v : DWord) (i : Nat) : Byte := v.extractLsb' (8 * i) 8

/-- IntEncode(w, order, v): the low `w` bytes of a value (R160, R161). -/
def intEncode (w : Nat) (o : ByteOrder) (v : DWord) : List Byte :=
  match o with
  | .le => (List.range w).map fun i => valueByte v i
  | .be => (List.range w).map fun i => valueByte v (w - 1 - i)

/-- The number a byte sequence is in little-endian order: the sum of b[i] * 2^(8i) (R161). -/
def leValue : List Byte → Nat
  | [] => 0
  | b :: bs => b.toNat + 256 * leValue bs

/-- IntDecode(w, order, b) for a buffer b of w bytes (R161). -/
def intDecode (o : ByteOrder) (b : List Byte) : Nat :=
  match o with
  | .le => leValue b
  | .be => beValue b

/-- The common form of the encode commands: SRC_LEN and SRC_BUF are not read (R162). -/
def State.packInt (s : State) (w : Nat) (o : ByteOrder) : State :=
  s.endCopy (intEncode w o s.val)

/-- The common form of the decode commands: SRC_LEN must be exactly `w` (R162). -/
def State.unpackInt (s : State) (w : Nat) (o : ByteOrder) : State :=
  if s.n ≠ w then s.raise .range 0
  else s.endLength (intDecode o (s.srcBytes w))

/-- INT.ENC16.LE (R163). -/
def execIntEnc16Le (s : State) : Host.Outcome State Fault Refusal :=
  .next (s.packInt 2 .le)

/-- INT.ENC16.BE (R164). -/
def execIntEnc16Be (s : State) : Host.Outcome State Fault Refusal :=
  .next (s.packInt 2 .be)

/-- INT.DEC16.LE (R165). -/
def execIntDec16Le (s : State) : Host.Outcome State Fault Refusal :=
  .next (s.unpackInt 2 .le)

/-- INT.DEC16.BE (R166). -/
def execIntDec16Be (s : State) : Host.Outcome State Fault Refusal :=
  .next (s.unpackInt 2 .be)

/-- INT.ENC32.LE (R167). -/
def execIntEnc32Le (s : State) : Host.Outcome State Fault Refusal :=
  .next (s.packInt 4 .le)

/-- INT.ENC32.BE (R168). -/
def execIntEnc32Be (s : State) : Host.Outcome State Fault Refusal :=
  .next (s.packInt 4 .be)

/-- INT.DEC32.LE (R169). -/
def execIntDec32Le (s : State) : Host.Outcome State Fault Refusal :=
  .next (s.unpackInt 4 .le)

/-- INT.DEC32.BE (R170). -/
def execIntDec32Be (s : State) : Host.Outcome State Fault Refusal :=
  .next (s.unpackInt 4 .be)

/-- INT.ENC64.LE (R171). -/
def execIntEnc64Le (s : State) : Host.Outcome State Fault Refusal :=
  .next (s.packInt 8 .le)

/-- INT.ENC64.BE (R172). -/
def execIntEnc64Be (s : State) : Host.Outcome State Fault Refusal :=
  .next (s.packInt 8 .be)

/-- INT.DEC64.LE (R173). -/
def execIntDec64Le (s : State) : Host.Outcome State Fault Refusal :=
  .next (s.unpackInt 8 .le)

/-- INT.DEC64.BE (R174). -/
def execIntDec64Be (s : State) : Host.Outcome State Fault Refusal :=
  .next (s.unpackInt 8 .be)

end Sys2Proof.Machine
end

