-- ==== Sys2Proof/Machine/SymbolTables.lean ====
section
/-! DEFINITION. The symbol-table unit (44_symbol_tables.md). -/

namespace Sys2Proof.Machine

/-- The first symbol, in input order, that is '=' or repeats an earlier one; `seen` holds the earlier ones (R191). -/
def firstBadSymbol (seen : List Byte) : List Byte → Option Byte
  | [] => none
  | c :: cs => if c = padByte ∨ c ∈ seen then some c else firstBadSymbol (c :: seen) cs

/-- `DST[SRC[v]] <- v` for each symbol in turn, from value `v` on, over a table (R191). -/
def fillMap : Nat → List Byte → List Byte → List Byte
  | _, [], table => table
  | v, c :: cs, table => fillMap (v + 1) cs (table.set c.toNat (BitVec.ofNat 8 v))

/-- The decode map MAP.BUILD writes: the sentinel everywhere, then each symbol's index at its code (R191). -/
def buildMap (alph : List Byte) : List Byte := fillMap 0 alph (List.replicate 256 sentinel)

/-- MAP.BUILD: RANGE when n is not 16, 32 or 64, then ALPHABET, both before any byte is written (R191). -/
def execMapBuild (s : State) : Host.Outcome State Fault Refusal :=
  .next (if s.n ≠ 16 ∧ s.n ≠ 32 ∧ s.n ≠ 64 then s.raise .range 0
    else match firstBadSymbol [] (s.srcBytes s.n) with
      | some c => s.raise .alphabet c
      | none => s.endCopy (buildMap (s.srcBytes s.n)))

/-- MAP.HEX (R192). -/
def execMapHex (s : State) : Host.Outcome State Fault Refusal :=
  .next (s.endCopy (mapTable hexDmap))

/-- MAP.B32.STD (R193). -/
def execMapB32Std (s : State) : Host.Outcome State Fault Refusal :=
  .next (s.endCopy (mapTable (inverse b32StdAlph)))

/-- MAP.B32.HEX (R194). -/
def execMapB32Hex (s : State) : Host.Outcome State Fault Refusal :=
  .next (s.endCopy (mapTable (inverse b32HexAlph)))

/-- MAP.B64.STD (R195). -/
def execMapB64Std (s : State) : Host.Outcome State Fault Refusal :=
  .next (s.endCopy (mapTable (inverse b64StdAlph)))

/-- MAP.B64.URL (R196). -/
def execMapB64Url (s : State) : Host.Outcome State Fault Refusal :=
  .next (s.endCopy (mapTable (inverse b64UrlAlph)))

/-- ALPH.HEX (R197). -/
def execAlphHex (s : State) : Host.Outcome State Fault Refusal :=
  .next (s.endCopy hexAlph)

/-- ALPH.B32.STD (R198). -/
def execAlphB32Std (s : State) : Host.Outcome State Fault Refusal :=
  .next (s.endCopy b32StdAlph)

/-- ALPH.B32.HEX (R199). -/
def execAlphB32Hex (s : State) : Host.Outcome State Fault Refusal :=
  .next (s.endCopy b32HexAlph)

/-- ALPH.B64.STD (R200). -/
def execAlphB64Std (s : State) : Host.Outcome State Fault Refusal :=
  .next (s.endCopy b64StdAlph)

/-- ALPH.B64.URL (R201). -/
def execAlphB64Url (s : State) : Host.Outcome State Fault Refusal :=
  .next (s.endCopy b64UrlAlph)

end Sys2Proof.Machine
end

