-- ==== Sys2Proof/Machine/Dispatch.lean ====
section
/-! DEFINITION. What each command does: one arm per constructor of Instr, each a direct call of its meaning. -/

namespace Sys2Proof.Machine

def exec (i : Instr) (s : State) : Host.Outcome State Fault Refusal :=
  match i with
  | .hexEnc => Sys2Proof.Machine.execHexEnc s
  | .hexDec => Sys2Proof.Machine.execHexDec s
  | .hexEnclen => Sys2Proof.Machine.execHexEnclen s
  | .hexDeclen => Sys2Proof.Machine.execHexDeclen s
  | .b32EncStd => Sys2Proof.Machine.execB32EncStd s
  | .b32EncHex => Sys2Proof.Machine.execB32EncHex s
  | .b32DecStd => Sys2Proof.Machine.execB32DecStd s
  | .b32DecHex => Sys2Proof.Machine.execB32DecHex s
  | .b32Enclen => Sys2Proof.Machine.execB32Enclen s
  | .b32Declen => Sys2Proof.Machine.execB32Declen s
  | .b64EncStd => Sys2Proof.Machine.execB64EncStd s
  | .b64EncUrl => Sys2Proof.Machine.execB64EncUrl s
  | .b64DecStd => Sys2Proof.Machine.execB64DecStd s
  | .b64DecUrl => Sys2Proof.Machine.execB64DecUrl s
  | .b64Enclen => Sys2Proof.Machine.execB64Enclen s
  | .b64Declen => Sys2Proof.Machine.execB64Declen s
  | .intEnc16Le => Sys2Proof.Machine.execIntEnc16Le s
  | .intEnc16Be => Sys2Proof.Machine.execIntEnc16Be s
  | .intDec16Le => Sys2Proof.Machine.execIntDec16Le s
  | .intDec16Be => Sys2Proof.Machine.execIntDec16Be s
  | .intEnc32Le => Sys2Proof.Machine.execIntEnc32Le s
  | .intEnc32Be => Sys2Proof.Machine.execIntEnc32Be s
  | .intDec32Le => Sys2Proof.Machine.execIntDec32Le s
  | .intDec32Be => Sys2Proof.Machine.execIntDec32Be s
  | .intEnc64Le => Sys2Proof.Machine.execIntEnc64Le s
  | .intEnc64Be => Sys2Proof.Machine.execIntEnc64Be s
  | .intDec64Le => Sys2Proof.Machine.execIntDec64Le s
  | .intDec64Be => Sys2Proof.Machine.execIntDec64Be s
  | .mapBuild => Sys2Proof.Machine.execMapBuild s
  | .mapHex => Sys2Proof.Machine.execMapHex s
  | .mapB32Std => Sys2Proof.Machine.execMapB32Std s
  | .mapB32Hex => Sys2Proof.Machine.execMapB32Hex s
  | .mapB64Std => Sys2Proof.Machine.execMapB64Std s
  | .mapB64Url => Sys2Proof.Machine.execMapB64Url s
  | .alphHex => Sys2Proof.Machine.execAlphHex s
  | .alphB32Std => Sys2Proof.Machine.execAlphB32Std s
  | .alphB32Hex => Sys2Proof.Machine.execAlphB32Hex s
  | .alphB64Std => Sys2Proof.Machine.execAlphB64Std s
  | .alphB64Url => Sys2Proof.Machine.execAlphB64Url s

end Sys2Proof.Machine
end

