-- ==== Sys2Proof/Machine/Bus.lean ====
section
/-! DEFINITION. One host access (20_memory.md R52 to R55) and the command a write to CMD runs (60_exceptions.md
R210). -/

namespace Sys2Proof.Machine

/-- What stands at an address (R51), with this block's capacities. -/
def State.placeAt (s : State) (addr : Word) : Place := locate s.srcCapr.toNat s.dstCapr.toNat addr

/-- The answer to a legal read (R51, R53): a register-window read answers a word, any other a byte; a reserved address
reads 0. -/
def State.busRead (s : State) (addr : Word) : Reply :=
  match s.placeAt addr with
  | .reg r => .word (s.readReg r)
  | .src i => .byte (s.srcByte i)
  | .dst i => .byte (s.dstByte i)
  | .reserved => if addr.toNat < windowEnd then .word 0 else .byte 0

/-- A legal write of `w` to CMD: CMD takes the word, then the word runs as a command (R24, R210, R215). -/
def runCommand (w : Word) (s : State) : Host.Outcome State Fault Refusal :=
  match decode w with
  | .ok i => exec i (s.writeReg .cmd w)
  | .error _ => .next (s.writeReg .cmd w).illegalCommand

/-- A legal write (R54). -/
def busWrite (addr : Word) (data : DWord) (s : State) : Host.Outcome State Fault Refusal :=
  match s.placeAt addr with
  | .reg .cmd => runCommand (data.setWidth 32) s
  | .reg r => .next (s.writeReg r (data.setWidth 32))
  | .src i => .next (s.writeSrc i (data.setWidth 8))
  | .dst _ => .next s
  | .reserved => .next s

/-- One host event. An access in any form but the two legal ones is a bus error, which a model refuses (R52). -/
def perform (e : HostEvent) (s : State) : Host.Outcome State Fault Refusal :=
  match e with
  | .read width addr =>
    if accessLegal width addr then .next { s with reply := s.busRead addr } else .refused .busError
  | .write width addr data =>
    if accessLegal width addr then busWrite addr data { s with reply := .ack } else .refused .busError
  | .reset => .next s.hostReset

/-- The next host event, if the host has one; with none pending the block does nothing (R14, R23; log entry 2). -/
def nextEvent (s : State) : Host.Outcome State Fault Refusal :=
  match s.pending with
  | [] => .next s
  | e :: rest => perform e { s with pending := rest }

/-- The host's write of a command word to CMD, placed first among its pending accesses (R70; log entry 1). -/
def State.placeCommand (s : State) (w : Word) : State :=
  { s with pending := .write .b4 cmdAddr (w.setWidth 64) :: s.pending }

end Sys2Proof.Machine
end

