-- ==== Sys2Proof/Machine/Step.lean ====
section
/-! DEFINITION. One step of the machine: one host event, a CMD write with its whole command included
(70_reset_and_hazards.md R247). -/

namespace Sys2Proof.Machine

/-- One step: the host's next event (R247). -/
def step (s : State) : Host.Outcome State Fault Refusal := nextEvent s

/-- `s` with the command of bits `w` (bits `nbits` and above 0) as the host's next write to CMD. -/
def State.withFetchWord (s : State) (nbits w : Nat) : State :=
  s.placeCommand (BitVec.ofNat 32 (w % 2 ^ nbits))

end Sys2Proof.Machine
end

