-- ==== Sys2Proof/WellFormed.lean ====
section
/-! DEFINITION. Well-formedness. A command has no operand (30_encoding.md R72), so every Instr is well formed; what can be
ill formed is a command word (R71, R75), a host access (20_memory.md R52) and a pair of capacities (00_scope.md R7). -/

namespace Sys2Proof

/-- Every instruction is well formed: no constructor has an operand (R72). -/
abbrev Instr.WellFormed (_ : Instr) : Prop := True

/-- A command word is well formed when it is one of the 39 legal words (R73 to R75). -/
def wordWellFormed (w : Word) : Bool := (decode w).toOption.isSome

/-- Capacities are well formed when `64 <= SRC_CAP <= 2^30` and `256 <= DST_CAP <= 2^30` (R7). -/
def capsWellFormed (srcCap dstCap : Nat) : Bool :=
  decide (64 ≤ srcCap ∧ srcCap ≤ 2 ^ 30 ∧ 256 ≤ dstCap ∧ dstCap ≤ 2 ^ 30)

namespace Machine

/-- A host event is well formed when it is a reset or an access in one of the two legal forms (R52). -/
def HostEvent.wellFormed : HostEvent → Bool
  | .read width addr => accessLegal width addr
  | .write width addr _ => accessLegal width addr
  | .reset => true

end Machine

end Sys2Proof
end

