-- ==== Sys2Proof/Safety.lean ====
section
/-! DEFINITION. The terms claims use: the invariant of the block, a host that issues legal accesses only, what a command
keeps, and how it ends. -/

namespace Sys2Proof.Machine

/-! ### The invariant -/

/-- The capacities in SRC_CAPR and DST_CAPR are allowed ones (R7, R29). -/
def CapsOk (s : State) : Prop :=
  64 ≤ s.srcCapr.toNat ∧ s.srcCapr.toNat ≤ 2 ^ 30 ∧ 256 ≤ s.dstCapr.toNat ∧ s.dstCapr.toNat ≤ 2 ^ 30

/-- A STATUS word the block can show: the reset value, or DONE = 1 with a code 0..6, the reserved bits 0, and a BYTE that
is 0 unless the code is INVALID_BYTE or ALPHABET (R25, R213). -/
def StatusLegal (w : Word) : Prop :=
  w = 0 ∨ (statusDone w = true ∧ statusReserved w = 0 ∧ (statusCode w).toNat ≤ 6 ∧
    (statusByte w ≠ 0 → (statusCode w).toNat = 1 ∨ (statusCode w).toNat = 6))

/-- A buffer is in canonical form and lists no byte at or above its capacity (R31, R32). -/
def BufferOk (m : Memory) (cap : Nat) : Prop := m.wf ∧ ∀ c ∈ m, c.1 < cap

/-- The invariant of the block. -/
def Invariant (s : State) : Prop :=
  CapsOk s ∧ StatusLegal s.status ∧ s.dstLen.toNat ≤ s.dstCapr.toNat ∧
    BufferOk s.src s.srcCapr.toNat ∧ BufferOk s.dst s.dstCapr.toNat

/-- The host's pending events are all well formed: it will cause no bus error (R52). -/
def HostOk (s : State) : Prop := ∀ e ∈ s.pending, e.wellFormed = true

/-! ### What a command keeps -/

/-- What no command writes: CMD, SRC_LEN, the capacities, SRC_BUF (R24, R26, R29, R31, R60), and the host's side of the
model. -/
def KeepsInputs (s t : State) : Prop :=
  t.cmd = s.cmd ∧ t.srcLen = s.srcLen ∧ t.srcCapr = s.srcCapr ∧ t.dstCapr = s.dstCapr ∧
    t.src = s.src ∧ (∀ i, t.srcByte i = s.srcByte i) ∧
    t.epoch = s.epoch ∧ t.pending = s.pending ∧ t.reply = s.reply

/-- VAL is unchanged (R28). -/
def KeepsVal (s t : State) : Prop := t.valLo = s.valLo ∧ t.valHi = s.valHi

/-- Every byte of DST_BUF at and above `k` is unchanged. -/
def KeepsDstFrom (k : Nat) (s t : State) : Prop := ∀ i, k ≤ i → t.dstByte i = s.dstByte i

/-! ### How a command ends -/

/-- `finish(len)`: the STATUS word 0x8000_0000, DST_LEN = len (R211). -/
def Finished (len : Nat) (t : State) : Prop := t.status = 0x80000000#32 ∧ t.dstLen.toNat = len

/-- `raise E(b)`: the STATUS word 0x8000_0000 | b << 8 | E, DST_LEN = 0 (R212). -/
def Raised (code : Nat) (b : Byte) (t : State) : Prop :=
  t.status.toNat = 0x80000000 + b.toNat * 256 + code ∧ t.dstLen = 0#32

/-- The command answers a next state that keeps the command's inputs and is as `P` says. -/
def Completes (i : Instr) (s : State) (P : State → Prop) : Prop :=
  ∃ t, exec i s = .next t ∧ KeepsInputs s t ∧ P t

/-- The command succeeds with `len` destination bytes, leaving the rest of DST_BUF unchanged; no byte is drawn. -/
def Succeeds (i : Instr) (s : State) (len : Nat) (P : State → Prop) : Prop :=
  Completes i s fun t => Finished len t ∧ KeepsDstFrom len s t ∧ t.draws = s.draws ∧ P t

/-- The command ends with an error code and byte, leaving VAL and `DST[bound ..)` unchanged. -/
def Fails (i : Instr) (s : State) (code : Nat) (b : Byte) (bound : Nat) : Prop :=
  Completes i s fun t => Raised code b t ∧ KeepsVal s t ∧ KeepsDstFrom bound s t

/-- The command ends with RANGE and no other effect (R214, R216). -/
def RaisesRange (i : Instr) (s : State) : Prop := Fails i s 5 0#8 0

/-- VAL as a number: VAL_HI : VAL_LO (R28). -/
def valNat (s : State) : Nat := s.valHi.toNat * 2 ^ 32 + s.valLo.toNat

/-! ### Tables by command -/

/-- The error codes each command may raise (R213); a command not listed raises none. -/
def mayRaise : Instr → Nat → Prop
  | .hexDec, c => c = 1 ∨ c = 2 ∨ c = 5
  | .b32DecStd, c | .b32DecHex, c | .b64DecStd, c | .b64DecUrl, c => c = 1 ∨ c = 3 ∨ c = 5
  | .hexEnc, c | .b32EncStd, c | .b32EncHex, c | .b64EncStd, c | .b64EncUrl, c => c = 5
  | .intDec16Le, c | .intDec16Be, c | .intDec32Le, c | .intDec32Be, c | .intDec64Le, c | .intDec64Be, c => c = 5
  | .mapBuild, c => c = 5 ∨ c = 6
  | _, _ => False

/-- The RANGE condition of each command (R216). -/
def rangeCondition (s : State) : Instr → Prop
  | .hexEnc => s.srcCapr.toNat < s.n ∨ s.dstCapr.toNat < 2 * s.n
  | .hexDec => s.srcCapr.toNat < s.n ∨ s.dstCapr.toNat < s.n / 2
  | .b32EncStd | .b32EncHex => s.srcCapr.toNat < s.n ∨ s.dstCapr.toNat < (s.n + 4) / 5 * 8
  | .b32DecStd | .b32DecHex => s.srcCapr.toNat < s.n ∨ s.dstCapr.toNat < s.n / 8 * 5
  | .b64EncStd | .b64EncUrl => s.srcCapr.toNat < s.n ∨ s.dstCapr.toNat < (s.n + 2) / 3 * 4
  | .b64DecStd | .b64DecUrl => s.srcCapr.toNat < s.n ∨ s.dstCapr.toNat < s.n / 4 * 3
  | .intDec16Le | .intDec16Be => s.n ≠ 2
  | .intDec32Le | .intDec32Be => s.n ≠ 4
  | .intDec64Le | .intDec64Be => s.n ≠ 8
  | .mapBuild => s.n ≠ 16 ∧ s.n ≠ 32 ∧ s.n ≠ 64
  | _ => False

/-- The decode bound D of a command (R214). -/
def decodeBound (n : Nat) : Instr → Nat
  | .hexDec => n / 2
  | .b32DecStd | .b32DecHex => n / 8 * 5
  | .b64DecStd | .b64DecUrl => n / 4 * 3
  | _ => 0

/-- The commands that write VAL when they succeed (R28, R60). -/
def writesVal : Instr → Bool
  | .hexEnclen | .hexDeclen | .b32Enclen | .b32Declen | .b64Enclen | .b64Declen => true
  | .intDec16Le | .intDec16Be | .intDec32Le | .intDec32Be | .intDec64Le | .intDec64Be => true
  | _ => false

/-- STATUS.CODE of a state, as a number (R25). -/
def codeOf (t : State) : Nat := t.status.toNat % 16

end Sys2Proof.Machine
end

