-- ==== Sys2Proof/Certificates/Slice0/Obligations.lean ====
section
/-! DEFINITION. The statements for the provers, each formalising rules of spec/. -/

open Sys2Proof Sys2Proof.Machine

namespace Sys2Proof.Claims

/-! ### Terms shared by the statements -/

/-- The RANGE conditions of an encode (R216): the command, its input count and its output count. -/
def rangeFails (s : State) (out : Nat) : Prop := s.srcCapr.toNat < s.n ∨ s.dstCapr.toNat < out

/-- Number of the group `g` of an encode of groups of `size` bytes: its bytes big-endian, left-justified (R121, R141). -/
def groupNumber (s : State) (size g : Nat) : Nat :=
  ((List.range (min size (s.n - size * g))).map
    fun i => (s.srcByte (size * g + i)).toNat * 2 ^ (8 * (size - 1 - i))).sum

/-- An encode command from groups of `size` bytes to groups of `symbols` symbols of `bits` bits (R121, R141): symbol
`j` of group `g` is `A[field j]` while it carries data, else `=`. -/
def EncodeCommand (i : Instr) (alph : List Byte) (size symbols bits : Nat) : Prop :=
  ∀ s : State,
    let groups := (s.n + size - 1) / size
    (rangeFails s (groups * symbols) → RaisesRange i s) ∧
    (¬ rangeFails s (groups * symbols) → Succeeds i s (groups * symbols) fun t => KeepsVal s t ∧
      ∀ g < groups, ∀ j < symbols, t.dstByte (symbols * g + j) =
        if j < (8 * min size (s.n - size * g) + bits - 1) / bits
        then symbol alph (groupNumber s size g / 2 ^ (bits * (symbols - 1 - j)) % 2 ^ bits)
        else 0x3D#8)

/-- `k` data symbols stand before the first `=` of the final group of `symbols` symbols (R122, R142). -/
def DataSymbols (s : State) (symbols k : Nat) : Prop :=
  k ≤ symbols ∧ (∀ j < k, s.srcByte (s.n - symbols + j) ≠ 0x3D#8) ∧
    (k < symbols → s.srcByte (s.n - symbols + k) = 0x3D#8)

/-- The symbol at `p` fails (R122, R142): a data symbol outside the alphabet, a first `=` after a number of data symbols
that encode does not produce, or a later symbol that is neither `=` nor in the alphabet. -/
def SymbolFails (s : State) (alph : List Byte) (symbols : Nat) (padded : List Nat) (k p : Nat) : Prop :=
  if p < s.n - symbols + k then inverse alph (s.srcByte p) = 0xFF#8
  else if p = s.n - symbols + k then k ∉ padded
  else s.srcByte p ≠ 0x3D#8 ∧ inverse alph (s.srcByte p) = 0xFF#8

/-- The number the first `cnt` symbols of group `g` make, left-justified (R122, R142). -/
def symbolsNumber (s : State) (alph : List Byte) (symbols bits g cnt : Nat) : Nat :=
  ((List.range cnt).map
    fun j => (inverse alph (s.srcByte (symbols * g + j))).toNat * 2 ^ (bits * (symbols - 1 - j))).sum

/-- A decode command (R122, R125, R142, R145): RANGE first; then INVALID_LENGTH, for the lengths `badLength` names; an
empty input that passes gives the empty output; on any other input the first failing symbol is reported; with none, the
final group gives `bits*k/8` bytes and every other group `size`. -/
def DecodeCommand (i : Instr) (alph : List Byte) (size symbols bits : Nat) (padded : List Nat)
    (badLength : Nat → Prop) : Prop :=
  ∀ s : State,
    let bound := s.n / symbols * size
    (rangeFails s bound → RaisesRange i s) ∧
    (¬ rangeFails s bound → badLength s.n → Fails i s 3 0#8 0) ∧
    (¬ rangeFails s bound → ¬ badLength s.n → s.n = 0 → Succeeds i s 0 fun t => KeepsVal s t) ∧
    (¬ rangeFails s bound → ¬ badLength s.n → 0 < s.n → ∀ k, DataSymbols s symbols k →
      let len := (s.n / symbols - 1) * size + bits * k / 8
      (∀ p < s.n, SymbolFails s alph symbols padded k p → (∀ q < p, ¬ SymbolFails s alph symbols padded k q) →
        Fails i s 1 (s.srcByte p) bound) ∧
      ((∀ p < s.n, ¬ SymbolFails s alph symbols padded k p) → Succeeds i s len fun t => KeepsVal s t ∧
        ∀ b < len, (t.dstByte b).toNat =
          symbolsNumber s alph symbols bits (b / size) (if b / size = s.n / symbols - 1 then k else symbols)
            / 2 ^ (8 * (size - 1 - b % size)) % 256))

/-- A length command (R104, R105, R127, R128, R147, R148). -/
def LengthCommand (i : Instr) (f : Nat → Nat) : Prop :=
  ∀ s : State, Succeeds i s 0 fun t => valNat t = f s.n

/-- An integer encode of `w` bytes (R162): byte `j` is byte `place j` of VAL. -/
def PackCommand (i : Instr) (w : Nat) (place : Nat → Nat) : Prop :=
  ∀ s : State, Succeeds i s w fun t => KeepsVal s t ∧
    ∀ j < w, (t.dstByte j).toNat = valNat s / 2 ^ (8 * place j) % 256

/-- An integer decode of `w` bytes (R162): RANGE unless SRC_LEN = w; byte `j` goes to byte `place j` of VAL. -/
def UnpackCommand (i : Instr) (w : Nat) (place : Nat → Nat) : Prop :=
  ∀ s : State, (s.n ≠ w → RaisesRange i s) ∧
    (s.n = w → Succeeds i s 0 fun t =>
      valNat t = ((List.range w).map fun j => (s.srcByte j).toNat * 2 ^ (8 * place j)).sum)

/-- A command that copies a constant table of `len` bytes to DST (R192 to R201). -/
def CopyCommand (i : Instr) (len : Nat) (f : Nat → Nat) : Prop :=
  ∀ s : State, Succeeds i s len fun t => KeepsVal s t ∧ ∀ j < len, (t.dstByte j).toNat = f j

/-! The contents of the ten constant tables as numbers (R34 to R38, R41, R42). -/

def hexAlphCode (v : Nat) : Nat := if v ≤ 9 then 0x30 + v else 0x61 + (v - 10)

def b32StdAlphCode (v : Nat) : Nat := if v ≤ 25 then 0x41 + v else 0x32 + (v - 26)

def b32HexAlphCode (v : Nat) : Nat := if v ≤ 9 then 0x30 + v else 0x41 + (v - 10)

/-- The base64 alphabets differ in the symbols for 62 and 63 alone (R37, R38). -/
def b64AlphCode (c62 c63 v : Nat) : Nat :=
  if v ≤ 25 then 0x41 + v else if v ≤ 51 then 0x61 + (v - 26) else if v ≤ 61 then 0x30 + (v - 52)
  else if v = 62 then c62 else c63

def hexMapCode (b : Nat) : Nat :=
  if 0x30 ≤ b ∧ b ≤ 0x39 then b - 0x30 else if 0x61 ≤ b ∧ b ≤ 0x66 then b - 0x61 + 10
  else if 0x41 ≤ b ∧ b ≤ 0x46 then b - 0x41 + 10 else 0xFF

def b32StdMapCode (b : Nat) : Nat :=
  if 0x41 ≤ b ∧ b ≤ 0x5A then b - 0x41 else if 0x32 ≤ b ∧ b ≤ 0x37 then b - 0x32 + 26 else 0xFF

def b32HexMapCode (b : Nat) : Nat :=
  if 0x30 ≤ b ∧ b ≤ 0x39 then b - 0x30 else if 0x41 ≤ b ∧ b ≤ 0x56 then b - 0x41 + 10 else 0xFF

def b64MapCode (c62 c63 b : Nat) : Nat :=
  if 0x41 ≤ b ∧ b ≤ 0x5A then b - 0x41 else if 0x61 ≤ b ∧ b ≤ 0x7A then b - 0x61 + 26
  else if 0x30 ≤ b ∧ b ≤ 0x39 then b - 0x30 + 52 else if b = c62 then 62 else if b = c63 then 63 else 0xFF

/-- An alphabet has `n` symbols, with the given codes. -/
def AlphabetIs (alph : List Byte) (n : Nat) (f : Nat → Nat) : Prop :=
  alph.length = n ∧ ∀ v < n, (symbol alph v).toNat = f v

/-- A decode map has the given entries. -/
def MapIs (dmap : Byte → Byte) (f : Nat → Nat) : Prop := ∀ b, (dmap b).toNat = f b.toNat

/-- The ten tables hold their fixed contents. -/
def TablesHold : Prop :=
  AlphabetIs hexAlph 16 hexAlphCode ∧ AlphabetIs b32StdAlph 32 b32StdAlphCode ∧
  AlphabetIs b32HexAlph 32 b32HexAlphCode ∧ AlphabetIs b64StdAlph 64 (b64AlphCode 0x2B 0x2F) ∧
  AlphabetIs b64UrlAlph 64 (b64AlphCode 0x2D 0x5F) ∧
  MapIs hexDmap hexMapCode ∧ MapIs (inverse b32StdAlph) b32StdMapCode ∧ MapIs (inverse b32HexAlph) b32HexMapCode ∧
  MapIs (inverse b64StdAlph) (b64MapCode 0x2B 0x2F) ∧ MapIs (inverse b64UrlAlph) (b64MapCode 0x2D 0x5F)

/-- The state `u` has, as its input, the output of the state `t`, and room for it and for the result. -/
def CopiedBack (t u : State) (out : Nat) : Prop :=
  u.srcLen = t.dstLen ∧ (∀ j < t.dstLen.toNat, u.srcByte j = t.dstByte j) ∧
    t.dstLen.toNat ≤ u.srcCapr.toNat ∧ out ≤ u.dstCapr.toNat

/-- The round trip of an encode and a decode command on an input of a state (R106, R129, R149): the encode succeeds,
and the decode of its output, copied back, succeeds with the bytes the encode read. -/
def RoundTripAt (enc dec : Instr) (encLen : Nat → Nat) (bound : Nat → Nat) (s : State) : Prop :=
  s.n ≤ s.srcCapr.toNat → encLen s.n ≤ s.dstCapr.toNat →
    ∃ t, exec enc s = .next t ∧ ∀ u, CopiedBack t u (bound s.n) →
      Succeeds dec u s.n fun v => ∀ j < s.n, v.dstByte j = s.srcByte j

/-- Two runs of a command end alike: in STATUS, DST_LEN, VAL and every destination byte, but for the bytes that a decode
error leaves unspecified, about which nothing is said (R214; log entry 7). -/
def EndsAlike (i : Instr) (s t t' : State) : Prop :=
  t'.status = t.status ∧ t'.dstLen = t.dstLen ∧ KeepsVal t t' ∧
    ∀ j, (codeOf t = 1 ∨ codeOf t = 2 → decodeBound s.n i ≤ j) → t'.dstByte j = t.dstByte j

/-- A CMD write of the host: a legal write of the word in the low half of `d` (R54, R78). -/
def cmdWrite (d : DWord) : HostEvent := .write .b4 0x00000000#32 d


end Sys2Proof.Claims

open Sys2Proof.Claims

/-! ### Encoding -/

/-- Words written out from the table of 30_encoding.md R73, one for each unit, decode to their commands. -/
def Obligations.TableWordsDecode : Prop :=
  decode 0b00000000000000000000000000010001#32 = .ok .hexDec ∧
  decode 0b00000000000000000000000100100000#32 = .ok .b32EncHex ∧
  decode 0b00000000000000000000000100110001#32 = .ok .b64DecUrl ∧
  decode 0b00000000000000000000000101000101#32 = .ok .intDec64Be ∧
  decode 0b00000000000000000000000001010000#32 = .ok .mapBuild ∧
  decode 0b00000000000000000000000101010101#32 = .ok .alphB32Hex

/-- 30_encoding.md R73, R74: a word decodes to a command exactly when it is the command's word in the table, so the legal
words are exactly the 39 of it. -/
def Obligations.DecodeIffEncode : Prop :=
  ∀ (w : Word) (i : Instr), decode w = .ok i ↔ w = encode i

/-- 30_encoding.md R75: which words are illegal, and what executing one does. -/
def Obligations.IllegalWords : Prop :=
  ∀ w : Word,
    let rsv := w.extractLsb' 9 23
    let unit := (w.extractLsb' 4 4).toNat
    let fn := (w.extractLsb' 0 4).toNat
    let var := w.getLsbD 8
    ((∃ e, decode w = .error e) ↔
      rsv ≠ 0 ∨ unit = 0 ∨ 6 ≤ unit ∨
      ((unit = 1 ∨ unit = 2 ∨ unit = 3) ∧ 4 ≤ fn) ∨ (unit = 4 ∧ 6 ≤ fn) ∨ (unit = 5 ∧ 7 ≤ fn) ∨
      (var = true ∧ (unit = 1 ∨ ((unit = 2 ∨ unit = 3) ∧ 2 ≤ fn) ∨ (unit = 5 ∧ (fn = 0 ∨ fn = 1 ∨ fn = 4))))) ∧
    ((∃ e, decode w = .error e) → ∀ s,
      runCommand w s = .next { s with cmd := w, status := 0x80000004#32, dstLen := 0#32 })

/-! ### Host accesses and steps -/

/-- 60_exceptions.md R210: a step whose host event is a legal write of a word to CMD stores the word in CMD and runs the
command it decodes to; `State.withFetchWord` makes the next step do so. -/
def Obligations.StepRunsDecodedCommand : Prop :=
  (∀ (s : State) (d : DWord) rest i, s.pending = cmdWrite d :: rest → decode (d.setWidth 32) = .ok i →
    step s = exec i { s with cmd := d.setWidth 32, pending := rest, reply := .ack }) ∧
  (∀ (s : State) (w : Word) i, decode w = .ok i →
    step (s.withFetchWord 32 w.toNat) = exec i { s with cmd := w, reply := .ack })

/-- 60_exceptions.md R215: a CMD write of an illegal word. -/
def Obligations.IllegalCommandStep : Prop :=
  ∀ (s : State) (d : DWord) rest e, s.pending = cmdWrite d :: rest → decode (d.setWidth 32) = .error e →
    ∃ t, step s = .next t ∧ t.cmd = d.setWidth 32 ∧ t.status = 0x80000004#32 ∧ t.dstLen = 0#32 ∧
      (∀ i, t.srcByte i = s.srcByte i) ∧ (∀ i, t.dstByte i = s.dstByte i) ∧
      t.srcLen = s.srcLen ∧ KeepsVal s t ∧ t.srcCapr = s.srcCapr ∧ t.dstCapr = s.dstCapr ∧ t.pending = rest

/-- 20_memory.md R52: the legal access forms are exactly two; a step refuses any other, and only such an access. -/
def Obligations.BusErrorsRefused : Prop :=
  (∀ (width : Width) (addr : Word), accessLegal width addr = true ↔
    (addr.toNat ≤ 0xFFF ∧ width.bytes = 4 ∧ addr.toNat % 4 = 0) ∨ (0xFFF < addr.toNat ∧ width.bytes = 1)) ∧
  (∀ (s : State) width addr rest, s.pending = .read width addr :: rest → accessLegal width addr = false →
    step s = .refused .busError) ∧
  (∀ (s : State) width addr data rest, s.pending = .write width addr data :: rest → accessLegal width addr = false →
    step s = .refused .busError)

/-- 10_state.md section 2 and 20_memory.md R53: a legal read in the register window answers the register at that offset,
or 0 at a reserved one, and changes nothing. -/
def Obligations.RegisterWindowReads : Prop :=
  ∀ (s : State) (a : Word) rest, s.pending = .read .b4 a :: rest → a.toNat ≤ 0xFFF → a.toNat % 4 = 0 →
    step s = .next { s with pending := rest, reply := .word (
      if a = 0x000#32 then s.cmd
      else if a = 0x004#32 then s.status
      else if a = 0x008#32 then s.srcLen
      else if a = 0x00C#32 then s.dstLen
      else if a = 0x010#32 then s.valLo
      else if a = 0x014#32 then s.valHi
      else if a = 0x018#32 then s.srcCapr
      else if a = 0x01C#32 then s.dstCapr
      else 0#32) }

/-- 20_memory.md R51, R53: a legal read outside the register window answers SRC[i], DST[i] or, at a reserved address, 0,
and changes nothing. -/
def Obligations.BufferReads : Prop :=
  ∀ (s : State) (a : Word) rest, CapsOk s → s.pending = .read .b1 a :: rest → 0x1000 ≤ a.toNat →
    step s = .next { s with pending := rest, reply := .byte (
      if 0x40000000 ≤ a.toNat ∧ a.toNat < 0x40000000 + s.srcCapr.toNat then s.srcByte (a.toNat - 0x40000000)
      else if 0x80000000 ≤ a.toNat ∧ a.toNat < 0x80000000 + s.dstCapr.toNat then s.dstByte (a.toNat - 0x80000000)
      else 0#8) }

/-- 20_memory.md R53: reserved addresses read 0 and ignore writes, and the reserved bits of STATUS read 0 in every state
the invariant allows. -/
def Obligations.ReservedAddresses : Prop :=
  (∀ (s : State) width (a : Word) rest, CapsOk s → accessLegal width a = true →
    (0x20 ≤ a.toNat ∧ a.toNat < 0x40000000 ∨
      0x40000000 + s.srcCapr.toNat ≤ a.toNat ∧ a.toNat < 0x80000000 ∨
      0x80000000 + s.dstCapr.toNat ≤ a.toNat) →
    (s.pending = .read width a :: rest →
      step s = .next { s with pending := rest, reply := if a.toNat ≤ 0xFFF then .word 0#32 else .byte 0#8 }) ∧
    (∀ d, s.pending = .write width a d :: rest → step s = .next { s with pending := rest, reply := .ack })) ∧
  (∀ s : State, Invariant s → ∀ k, (4 ≤ k ∧ k ≤ 7 ∨ 16 ≤ k ∧ k ≤ 30) → s.status.getLsbD k = false)

/-- 20_memory.md R54: what each legal write does. -/
def Obligations.LegalWrites : Prop :=
  ∀ (s : State) (d : DWord) rest,
    (∀ a ∈ [0x004#32, 0x00C#32, 0x018#32, 0x01C#32], s.pending = .write .b4 a d :: rest →
      step s = .next { s with pending := rest, reply := .ack }) ∧
    (∀ a : Word, 0x80000000 ≤ a.toNat → a.toNat ≤ 0xBFFFFFFF → s.pending = .write .b1 a d :: rest →
      step s = .next { s with pending := rest, reply := .ack }) ∧
    (∀ i, CapsOk s → i < s.srcCapr.toNat → s.pending = .write .b1 (BitVec.ofNat 32 (0x40000000 + i)) d :: rest →
      ∃ t, step s = .next t ∧ t.srcByte i = d.setWidth 8 ∧ (∀ j, j ≠ i → t.srcByte j = s.srcByte j) ∧
        t = { s with src := t.src, pending := rest, reply := .ack }) ∧
    (s.pending = .write .b4 0x008#32 d :: rest →
      step s = .next { s with srcLen := d.setWidth 32, pending := rest, reply := .ack }) ∧
    (s.pending = .write .b4 0x010#32 d :: rest →
      step s = .next { s with valLo := d.setWidth 32, pending := rest, reply := .ack }) ∧
    (s.pending = .write .b4 0x014#32 d :: rest →
      step s = .next { s with valHi := d.setWidth 32, pending := rest, reply := .ack }) ∧
    (s.pending = cmdWrite d :: rest →
      step s = runCommand (d.setWidth 32) { s with pending := rest, reply := .ack } ∧
        ∃ t, step s = .next t ∧ t.cmd = d.setWidth 32)

/-- 20_memory.md R55: a read changes nothing but the answer, and it is idempotent: in any state that differs only in
the host's side, a read of the same place answers the same. -/
def Obligations.ReadsHaveNoSideEffect : Prop :=
  ∀ (s t : State) width addr rest, s.pending = .read width addr :: rest → step s = .next t →
    t = { s with pending := rest, reply := t.reply } ∧
    ∀ rest' r, step { s with pending := .read width addr :: rest', reply := r } =
      .next { s with pending := rest', reply := t.reply }

/-- 70_reset_and_hazards.md R240: the state after reset: the registers, the capacities within the bounds of 00_scope.md R7
(log entry 4), every buffer byte a draw, and the constant tables with their contents. R240 says of a buffer byte "any
value" only: its form as a draw, with epoch 0, is the model's choice (log entry 6), as are the tables as constants (log
entry 9). -/
def Obligations.ResetState : Prop :=
  let t := State.reset
  t.cmd = 0x00000000#32 ∧ t.status = 0x00000000#32 ∧ t.srcLen = 0x00000000#32 ∧ t.dstLen = 0x00000000#32 ∧
  t.valLo = 0x00000000#32 ∧ t.valHi = 0x00000000#32 ∧
  t.srcCapr.toNat = Config.srcCap ∧ t.dstCapr.toNat = Config.dstCap ∧
  64 ≤ Config.srcCap ∧ Config.srcCap ≤ 2 ^ 30 ∧ 256 ≤ Config.dstCap ∧ Config.dstCap ≤ 2 ^ 30 ∧
  (∀ i, t.srcByte i = Config.resetSrcByte 0 i) ∧ (∀ i, t.dstByte i = Config.resetDstByte 0 i) ∧ TablesHold

/-- 70_reset_and_hazards.md R241: a later reset gives the state of R240 again, with the hardwired capacities kept and no
command run. That a reset is a host event, and the fields of the model that it keeps, are the model's choice (log entry
11), and so is the form of the new draws of the buffer bytes, by epoch (log entry 6). -/
def Obligations.LaterReset : Prop :=
  ∀ (s : State) rest, s.pending = .reset :: rest →
    ∃ t, step s = .next t ∧ t.cmd = 0#32 ∧ t.status = 0#32 ∧ t.srcLen = 0#32 ∧ t.dstLen = 0#32 ∧
      t.valLo = 0#32 ∧ t.valHi = 0#32 ∧ t.srcCapr = s.srcCapr ∧ t.dstCapr = s.dstCapr ∧
      (∀ i, t.srcByte i = Config.resetSrcByte (s.epoch + 1) i) ∧
      (∀ i, t.dstByte i = Config.resetDstByte (s.epoch + 1) i) ∧ t.pending = rest

/-- Log entry 2 (DESIGN CHOICE): with no host event pending, a step changes nothing. -/
def Obligations.IdleWithoutHost : Prop :=
  ∀ s : State, s.pending = [] → step s = .next s

/-- 60_exceptions.md R218: the only host step without meaning is a bus error; a host that issues legal accesses only is
never stopped. -/
def Obligations.LegalHostNeverStops : Prop :=
  (∀ s : State, HostOk s → ∃ t, step s = .next t ∧ HostOk t) ∧
  (∀ (s : State) r, step s = .refused r → r = .busError ∧ ∃ e rest, s.pending = e :: rest ∧ e.wellFormed = false) ∧
  (∀ (s : State) f, step s ≠ .fault f)

/-- The invariant of the block: allowed capacities (R7, R29), a legal STATUS (R25, R213), DST_LEN at most DST_CAP, and both
buffers in canonical form within their capacities (R31, R32): every step keeps it. -/
def Obligations.StepKeepsInv : Prop :=
  ∀ s t : State, Invariant s → step s = .next t → Invariant t

/-- The invariant holds after reset (R240). -/
def Obligations.ResetHasInv : Prop := Invariant State.reset

/-- 10_state.md R29: SRC_CAPR and DST_CAPR hold the parameters after reset, no step changes them, and at offsets 0x018 and
0x01C a read answers them and a write is ignored. -/
def Obligations.CapacitiesNeverChange : Prop :=
  State.reset.srcCapr.toNat = Config.srcCap ∧ State.reset.dstCapr.toNat = Config.dstCap ∧
  (∀ s t : State, step s = .next t → t.srcCapr = s.srcCapr ∧ t.dstCapr = s.dstCapr) ∧
  (∀ (s : State) rest, s.pending = .read .b4 0x018#32 :: rest →
    step s = .next { s with pending := rest, reply := .word s.srcCapr }) ∧
  (∀ (s : State) rest, s.pending = .read .b4 0x01C#32 :: rest →
    step s = .next { s with pending := rest, reply := .word s.dstCapr }) ∧
  (∀ (s : State) a d rest, a = 0x018#32 ∨ a = 0x01C#32 → s.pending = .write .b4 a d :: rest →
    step s = .next { s with pending := rest, reply := .ack })

/-- 10_state.md R25, 70_reset_and_hazards.md R242: DONE is 0 from reset until the first command completes, then 1 until the
next reset. -/
def Obligations.DoneFromFirstCommand : Prop :=
  statusDone State.reset.status = false ∧
  (∀ (s t : State) d rest, s.pending = cmdWrite d :: rest → step s = .next t → statusDone t.status = true) ∧
  (∀ (s t : State) e rest, s.pending = e :: rest → e ≠ .reset → (∀ d, e ≠ cmdWrite d) → step s = .next t →
    t.status = s.status)

/-! ### All commands -/

/-- 20_memory.md R60, 60_exceptions.md R210: every command, from every state, completes, and writes neither CMD nor
SRC_LEN nor SRC_BUF nor a capacity. -/
def Obligations.CommandsKeepInputs : Prop :=
  ∀ (i : Instr) (s : State), ∃ t, exec i s = .next t ∧ KeepsInputs s t ∧ statusDone t.status = true

/-- 60_exceptions.md R211, R212: a command ends either by finish, with DST unchanged from DST_LEN on, or by raise, with
DST_LEN = 0 and VAL unchanged; BYTE is 0 but for INVALID_BYTE and ALPHABET. -/
def Obligations.CommandsFinishOrRaise : Prop :=
  ∀ (i : Instr) (s t : State), exec i s = .next t →
    (t.status = 0x80000000#32 ∧ KeepsDstFrom t.dstLen.toNat s t ∧ t.draws = s.draws) ∨
    (∃ code b, Raised code b t ∧ 1 ≤ code ∧ code ≤ 6 ∧ (b ≠ 0 → code = 1 ∨ code = 6) ∧ KeepsVal s t)

/-- 10_state.md R28: only the integer decodes and the length commands write VAL; every other command, and every command
that ends in an error, leaves it unchanged. -/
def Obligations.ValWriters : Prop :=
  ∀ (i : Instr) (s t : State), exec i s = .next t → (writesVal i = false ∨ codeOf t ≠ 0) → KeepsVal s t

/-- 60_exceptions.md R216: a command raises RANGE exactly under its condition, and then changes nothing but STATUS and
DST_LEN. -/
def Obligations.RangeExactly : Prop :=
  ∀ (i : Instr) (s : State),
    (rangeCondition s i → exec i s = .next { s with status := 0x80000005#32, dstLen := 0#32 }) ∧
    (¬ rangeCondition s i → ∃ t, exec i s = .next t ∧ codeOf t ≠ 5)

/-- 60_exceptions.md R213: which codes each command raises; codes 7 to 15 and, by a legal command, ILLEGAL_CMD are never
produced. -/
def Obligations.CodesByCommand : Prop :=
  ∀ (i : Instr) (s t : State), exec i s = .next t → codeOf t = 0 ∨ mayRaise i (codeOf t)

/-- 60_exceptions.md R214: the destination buffer after an error: unchanged at and above the decode bound after
INVALID_BYTE and ODD_LENGTH, unchanged everywhere after any other error. -/
def Obligations.DstAfterError : Prop :=
  ∀ (i : Instr) (s t : State), exec i s = .next t → codeOf t ≠ 0 →
    KeepsDstFrom (decodeBound s.n i) s t ∧
    (codeOf t ≠ 1 → codeOf t ≠ 2 → (∀ j, t.dstByte j = s.dstByte j) ∧ t.draws = s.draws)

/-- Log entry 7 (the model's form of the draws of 60_exceptions.md R214): after INVALID_BYTE and ODD_LENGTH each byte below
the decode bound is a fresh draw. -/
def Obligations.DrawnAfterError : Prop :=
  ∀ (i : Instr) (s t : State), exec i s = .next t → (codeOf t = 1 ∨ codeOf t = 2) →
    t.draws = s.draws + decodeBound s.n i ∧
    ∀ j < decodeBound s.n i, t.dstByte j = Config.errorDstByte (s.draws + j)

/-- 10_state.md R31 and 92_eei_decisions.md D37: no command depends on a source byte at or above SRC_LEN. -/
def Obligations.SrcBeyondLenNeverRead : Prop :=
  ∀ (i : Instr) (s t : State) (m : Memory), (∀ j < s.n, { s with src := m }.srcByte j = s.srcByte j) →
    exec i s = .next t → ∃ t', exec i { s with src := m } = .next t' ∧ EndsAlike i s t t'

/-- 20_memory.md R60: no command reads DST_BUF: with any other destination contents a command ends the same, with the same
output bytes. -/
def Obligations.DstNeverRead : Prop :=
  ∀ (i : Instr) (s t : State) (m : Memory), exec i s = .next t →
    ∃ t', exec i { s with dst := m } = .next t' ∧ t'.status = t.status ∧ t'.dstLen = t.dstLen ∧ KeepsVal t t' ∧
      ∀ j < t.dstLen.toNat, t'.dstByte j = t.dstByte j

/-- 10_state.md R30, 20_memory.md R60: no command reads STATUS, DST_LEN or CMD. -/
def Obligations.StatusNeverRead : Prop :=
  ∀ (i : Instr) (s t : State) (a b c : Word), exec i s = .next t →
    ∃ t', exec i { s with cmd := a, status := b, dstLen := c } = .next t' ∧ t'.cmd = a ∧ EndsAlike i s t t'

/-! ### Hex -/

/-- 40_hex.md R100, R102: HEX.ENC. -/
def Obligations.HexEncode : Prop :=
  decode 0x00000010#32 = .ok .hexEnc ∧
  ∀ s : State,
    (rangeFails s (2 * s.n) → RaisesRange .hexEnc s) ∧
    (¬ rangeFails s (2 * s.n) → Succeeds .hexEnc s (2 * s.n) fun t => KeepsVal s t ∧
      ∀ i < s.n, t.dstByte (2 * i) = symbol hexAlph ((s.srcByte i).toNat / 16) ∧
        t.dstByte (2 * i + 1) = symbol hexAlph ((s.srcByte i).toNat % 16))

/-- 40_hex.md R101, R103: HEX.DEC. -/
def Obligations.HexDecode : Prop :=
  decode 0x00000011#32 = .ok .hexDec ∧
  ∀ s : State,
    (rangeFails s (s.n / 2) → RaisesRange .hexDec s) ∧
    (¬ rangeFails s (s.n / 2) →
      (∀ p < s.n, hexDmap (s.srcByte p) = 0xFF#8 → (∀ q < p, hexDmap (s.srcByte q) ≠ 0xFF#8) →
        Fails .hexDec s 1 (s.srcByte p) (s.n / 2)) ∧
      ((∀ p < s.n, hexDmap (s.srcByte p) ≠ 0xFF#8) → s.n % 2 = 1 → Fails .hexDec s 2 0#8 (s.n / 2)) ∧
      ((∀ p < s.n, hexDmap (s.srcByte p) ≠ 0xFF#8) → s.n % 2 = 0 →
        Succeeds .hexDec s (s.n / 2) fun t => KeepsVal s t ∧ ∀ i < s.n / 2, (t.dstByte i).toNat =
          (hexDmap (s.srcByte (2 * i))).toNat * 16 + (hexDmap (s.srcByte (2 * i + 1))).toNat))

/-- 40_hex.md R104, R105: HEX.ENCLEN and HEX.DECLEN, exact in the 64-bit VAL. -/
def Obligations.HexLengths : Prop :=
  decode 0x00000012#32 = .ok .hexEnclen ∧ decode 0x00000013#32 = .ok .hexDeclen ∧
  LengthCommand .hexEnclen (fun n => 2 * n) ∧ LengthCommand .hexDeclen (fun n => n / 2)

/-- 40_hex.md R106: HEX.DEC of HEX.ENC's output, copied back, gives the bytes HEX.ENC read (in a SRC_BUF that holds them:
log entry 15); the length laws; and decoding, then encoding, gives back exactly the inputs without an upper-case letter.
The model's choice (log entry 16): HEX.DECLEN takes the HEX.ENCLEN result from SRC_LEN, which holds VAL_LO; the premise
`t.valHi = 0` restricts that law to results that fit SRC_LEN, n < 2^31, as the spec does not say how a larger one is fed
back. -/
def Obligations.HexRoundTrip : Prop :=
  (∀ s : State, RoundTripAt .hexEnc .hexDec (fun n => 2 * n) (fun n => n) s) ∧
  (∀ x : List Byte, hexDecode (hexEncode x) = .ok x) ∧
  (∀ s t u v : State, exec .hexEnclen s = .next t → u.srcLen = t.valLo → t.valHi = 0#32 → exec .hexDeclen u = .next v →
    valNat v = s.n) ∧
  (∀ s s' t t' : State, s.n ≤ s'.n → exec .hexEnclen s = .next t → exec .hexEnclen s' = .next t' →
    valNat t ≤ valNat t') ∧
  (∀ x y : List Byte, hexDecode x = .ok y →
    (hexEncode y = x ↔ ∀ c ∈ x, ¬ (0x41 ≤ c.toNat ∧ c.toNat ≤ 0x46)))

/-! ### Base32 -/

/-- 41_base32.md R121, R123, R124: the base32 encodes. -/
def Obligations.Base32Encode : Prop :=
  decode 0x00000020#32 = .ok .b32EncStd ∧ decode 0x00000120#32 = .ok .b32EncHex ∧
  EncodeCommand .b32EncStd b32StdAlph 5 8 5 ∧ EncodeCommand .b32EncHex b32HexAlph 5 8 5

/-- 41_base32.md R122, R125, R126: the base32 decodes. -/
def Obligations.Base32Decode : Prop :=
  decode 0x00000021#32 = .ok .b32DecStd ∧ decode 0x00000121#32 = .ok .b32DecHex ∧
  DecodeCommand .b32DecStd b32StdAlph 5 8 5 [2, 4, 5, 7] (fun n => n % 8 ≠ 0) ∧
  DecodeCommand .b32DecHex b32HexAlph 5 8 5 [2, 4, 5, 7] (fun n => n % 8 ≠ 0)

/-- 41_base32.md R127, R128: B32.ENCLEN and B32.DECLEN. -/
def Obligations.Base32Lengths : Prop :=
  decode 0x00000022#32 = .ok .b32Enclen ∧ decode 0x00000023#32 = .ok .b32Declen ∧
  LengthCommand .b32Enclen (fun n => (n + 4) / 5 * 8) ∧ LengthCommand .b32Declen (fun n => n / 8 * 5)

/-- 41_base32.md R129: the round trip of base32 with both alphabets, the empty input included, and its length laws. -/
def Obligations.Base32RoundTrip : Prop :=
  (∀ s : State, RoundTripAt .b32EncStd .b32DecStd (fun n => (n + 4) / 5 * 8) (fun n => (n + 4) / 5 * 5) s ∧
    RoundTripAt .b32EncHex .b32DecHex (fun n => (n + 4) / 5 * 8) (fun n => (n + 4) / 5 * 5) s) ∧
  (∀ alph ∈ [b32StdAlph, b32HexAlph], ∀ x : List Byte, b32Decode alph (b32Encode alph x) = .ok x) ∧
  (∀ n, b32DecLen (b32EncLen n) = (n + 4) / 5 * 5 ∧ n ≤ b32DecLen (b32EncLen n)) ∧
  (∀ m n, m ≤ n → b32EncLen m ≤ b32EncLen n)

/-! ### Base64 -/

/-- 42_base64.md R141, R143, R144: the base64 encodes. -/
def Obligations.Base64Encode : Prop :=
  decode 0x00000030#32 = .ok .b64EncStd ∧ decode 0x00000130#32 = .ok .b64EncUrl ∧
  EncodeCommand .b64EncStd b64StdAlph 3 4 6 ∧ EncodeCommand .b64EncUrl b64UrlAlph 3 4 6

/-- 42_base64.md R142, R145, R146: the base64 decodes. -/
def Obligations.Base64Decode : Prop :=
  decode 0x00000031#32 = .ok .b64DecStd ∧ decode 0x00000131#32 = .ok .b64DecUrl ∧
  DecodeCommand .b64DecStd b64StdAlph 3 4 6 [2, 3] (fun n => n = 0 ∨ n % 4 ≠ 0) ∧
  DecodeCommand .b64DecUrl b64UrlAlph 3 4 6 [2, 3] (fun n => n = 0 ∨ n % 4 ≠ 0)

/-- 42_base64.md R147, R148: B64.ENCLEN and B64.DECLEN. -/
def Obligations.Base64Lengths : Prop :=
  decode 0x00000032#32 = .ok .b64Enclen ∧ decode 0x00000033#32 = .ok .b64Declen ∧
  LengthCommand .b64Enclen (fun n => (n + 2) / 3 * 4) ∧ LengthCommand .b64Declen (fun n => n / 4 * 3)

/-- 42_base64.md R149: the round trip of base64 with both alphabets on every non-empty input, its failure on the empty
one, and its length laws. -/
def Obligations.Base64RoundTrip : Prop :=
  (∀ s : State, 0 < s.n →
    RoundTripAt .b64EncStd .b64DecStd (fun n => (n + 2) / 3 * 4) (fun n => (n + 2) / 3 * 3) s ∧
    RoundTripAt .b64EncUrl .b64DecUrl (fun n => (n + 2) / 3 * 4) (fun n => (n + 2) / 3 * 3) s) ∧
  (∀ alph ∈ [b64StdAlph, b64UrlAlph], (∀ x : List Byte, x ≠ [] → b64Decode alph (b64Encode alph x) = .ok x) ∧
    b64Encode alph [] = [] ∧ b64Decode alph [] = .error .invalidLength) ∧
  (∀ n, b64DecLen (b64EncLen n) = (n + 2) / 3 * 3 ∧ n ≤ b64DecLen (b64EncLen n)) ∧
  (∀ m n, m ≤ n → b64EncLen m ≤ b64EncLen n)

/-! ### Integers -/

/-- 43_integer.md R162 to R164, R167, R168, R171, R172: the integer encodes. -/
def Obligations.IntegerEncode : Prop :=
  decode 0x00000040#32 = .ok .intEnc16Le ∧ decode 0x00000140#32 = .ok .intEnc16Be ∧
  decode 0x00000042#32 = .ok .intEnc32Le ∧ decode 0x00000142#32 = .ok .intEnc32Be ∧
  decode 0x00000044#32 = .ok .intEnc64Le ∧ decode 0x00000144#32 = .ok .intEnc64Be ∧
  PackCommand .intEnc16Le 2 (fun j => j) ∧ PackCommand .intEnc16Be 2 (fun j => 1 - j) ∧
  PackCommand .intEnc32Le 4 (fun j => j) ∧ PackCommand .intEnc32Be 4 (fun j => 3 - j) ∧
  PackCommand .intEnc64Le 8 (fun j => j) ∧ PackCommand .intEnc64Be 8 (fun j => 7 - j)

/-- 43_integer.md R162, R165, R166, R169, R170, R173, R174: the integer decodes. -/
def Obligations.IntegerDecode : Prop :=
  decode 0x00000041#32 = .ok .intDec16Le ∧ decode 0x00000141#32 = .ok .intDec16Be ∧
  decode 0x00000043#32 = .ok .intDec32Le ∧ decode 0x00000143#32 = .ok .intDec32Be ∧
  decode 0x00000045#32 = .ok .intDec64Le ∧ decode 0x00000145#32 = .ok .intDec64Be ∧
  UnpackCommand .intDec16Le 2 (fun j => j) ∧ UnpackCommand .intDec16Be 2 (fun j => 1 - j) ∧
  UnpackCommand .intDec32Le 4 (fun j => j) ∧ UnpackCommand .intDec32Be 4 (fun j => 3 - j) ∧
  UnpackCommand .intDec64Le 8 (fun j => j) ∧ UnpackCommand .intDec64Be 8 (fun j => 7 - j)

/-- 43_integer.md R175: an integer encode, its bytes copied back, and the decode of the same width and order leave the
value; the reverse holds for every buffer; big-endian is little-endian reversed. -/
def Obligations.IntegerRoundTrip : Prop :=
  (∀ p ∈ [(Instr.intEnc16Le, Instr.intDec16Le, 2), (.intEnc16Be, .intDec16Be, 2), (.intEnc32Le, .intDec32Le, 4),
      (.intEnc32Be, .intDec32Be, 4), (.intEnc64Le, .intDec64Le, 8), (.intEnc64Be, .intDec64Be, 8)],
    ∀ s : State, valNat s < 2 ^ (8 * p.2.2) → ∃ t, exec p.1 s = .next t ∧
      ∀ u : State, u.n = p.2.2 → (∀ j < p.2.2, u.srcByte j = t.dstByte j) →
        Succeeds p.2.1 u 0 fun v => valNat v = valNat s) ∧
  (∀ p ∈ [(Instr.intEnc16Le, Instr.intDec16Le, 2), (.intEnc16Be, .intDec16Be, 2), (.intEnc32Le, .intDec32Le, 4),
      (.intEnc32Be, .intDec32Be, 4), (.intEnc64Le, .intDec64Le, 8), (.intEnc64Be, .intDec64Be, 8)],
    ∀ s : State, s.n = p.2.2 → ∃ t, exec p.2.1 s = .next t ∧
      ∀ u : State, valNat u = valNat t → Succeeds p.1 u p.2.2 fun v => ∀ j < p.2.2, v.dstByte j = s.srcByte j) ∧
  (∀ w (v : DWord), intEncode w .be v = (intEncode w .le v).reverse)

/-! ### Symbol tables -/

/-- 44_symbol_tables.md R190, R191: MAP.BUILD. -/
def Obligations.MapBuild : Prop :=
  decode 0x00000050#32 = .ok .mapBuild ∧
  ∀ s : State,
    (¬ (s.n = 16 ∨ s.n = 32 ∨ s.n = 64) → RaisesRange .mapBuild s) ∧
    ((s.n = 16 ∨ s.n = 32 ∨ s.n = 64) →
      (∀ p < s.n, (s.srcByte p = 0x3D#8 ∨ ∃ q < p, s.srcByte q = s.srcByte p) →
        (∀ r < p, s.srcByte r ≠ 0x3D#8 ∧ ∀ q < r, s.srcByte q ≠ s.srcByte r) →
        Fails .mapBuild s 6 (s.srcByte p) 0) ∧
      ((∀ p < s.n, s.srcByte p ≠ 0x3D#8 ∧ ∀ q < p, s.srcByte q ≠ s.srcByte p) →
        Succeeds .mapBuild s 256 fun t => KeepsVal s t ∧
          (∀ v < s.n, (t.dstByte (s.srcByte v).toNat).toNat = v) ∧
          (∀ b < 256, (∀ v < s.n, (s.srcByte v).toNat ≠ b) → t.dstByte b = 0xFF#8)))

/-- 10_state.md R34 to R42: the contents of the ten constant tables; the alphabets hold distinct symbols and no `=`. -/
def Obligations.ConstantTables : Prop :=
  TablesHold ∧
  ∀ alph ∈ [hexAlph, b32StdAlph, b32HexAlph, b64StdAlph, b64UrlAlph], alph.Nodup ∧ 0x3D#8 ∉ alph

/-- 44_symbol_tables.md R192 to R196, with the maps of 10_state.md R40 to R42 written out: the MAP commands. -/
def Obligations.MapTables : Prop :=
  decode 0x00000051#32 = .ok .mapHex ∧ decode 0x00000052#32 = .ok .mapB32Std ∧ decode 0x00000152#32 = .ok .mapB32Hex ∧
  decode 0x00000053#32 = .ok .mapB64Std ∧ decode 0x00000153#32 = .ok .mapB64Url ∧
  CopyCommand .mapHex 256 hexMapCode ∧ CopyCommand .mapB32Std 256 b32StdMapCode ∧
  CopyCommand .mapB32Hex 256 b32HexMapCode ∧ CopyCommand .mapB64Std 256 (b64MapCode 0x2B 0x2F) ∧
  CopyCommand .mapB64Url 256 (b64MapCode 0x2D 0x5F)

/-- 44_symbol_tables.md R197 to R201, with the alphabets of 10_state.md R34 to R38 written out: the ALPH commands. -/
def Obligations.AlphabetTables : Prop :=
  decode 0x00000054#32 = .ok .alphHex ∧ decode 0x00000055#32 = .ok .alphB32Std ∧
  decode 0x00000155#32 = .ok .alphB32Hex ∧ decode 0x00000056#32 = .ok .alphB64Std ∧
  decode 0x00000156#32 = .ok .alphB64Url ∧
  CopyCommand .alphHex 16 hexAlphCode ∧ CopyCommand .alphB32Std 32 b32StdAlphCode ∧
  CopyCommand .alphB32Hex 32 b32HexAlphCode ∧ CopyCommand .alphB64Std 64 (b64AlphCode 0x2B 0x2F) ∧
  CopyCommand .alphB64Url 64 (b64AlphCode 0x2D 0x5F)

/-- 10_state.md R40: the decode map of an alphabet of distinct symbols: `Inverse(A)[A[v]] = v`, every other entry 0xFF. -/
def Obligations.InverseOfAlphabet : Prop :=
  ∀ alph : List Byte, alph.Nodup →
    (∀ v (h : v < alph.length), (inverse alph alph[v]).toNat = v) ∧
    (∀ b, b ∉ alph → inverse alph b = 0xFF#8)

/-- 44_symbol_tables.md R202: MAP.BUILD of each base32 and base64 alphabet, read by ALPH and copied back, writes the bytes
of the MAP command of the same variant; for the hex alphabet the two differ in the entries 'A'..'F' only. -/
def Obligations.MapCrossCheck : Prop :=
  (∀ p ∈ [(Instr.alphB32Std, Instr.mapB32Std), (.alphB32Hex, .mapB32Hex), (.alphB64Std, .mapB64Std),
      (.alphB64Url, .mapB64Url)],
    ∀ s u x : State, ∃ t, exec p.1 s = .next t ∧ (u.srcLen = t.dstLen → (∀ j < t.dstLen.toNat, u.srcByte j = t.dstByte j) →
      ∃ v y, exec .mapBuild u = .next v ∧ exec p.2 x = .next y ∧ Finished 256 v ∧ Finished 256 y ∧
        ∀ b < 256, v.dstByte b = y.dstByte b)) ∧
  (∀ s u x : State, ∃ t, exec .alphHex s = .next t ∧ (u.srcLen = t.dstLen →
    (∀ j < t.dstLen.toNat, u.srcByte j = t.dstByte j) →
      ∃ v y, exec .mapBuild u = .next v ∧ exec .mapHex x = .next y ∧ Finished 256 v ∧ Finished 256 y ∧
        ∀ b < 256, v.dstByte b ≠ y.dstByte b ↔ 0x41 ≤ b ∧ b ≤ 0x46))
end

