-- ==== Sys2Proof/Laws/State.lean ====
section
/-! SUPPORT. What each named update of the state does to each field: one simp lemma per field per update. -/

namespace Sys2Proof.Machine

variable (s : State)

@[simp] theorem State.writeSrc_cmd (i : Nat) (b : Byte) : (s.writeSrc i b).cmd = s.cmd := rfl
@[simp] theorem State.writeSrc_status (i : Nat) (b : Byte) : (s.writeSrc i b).status = s.status := rfl
@[simp] theorem State.writeSrc_srcLen (i : Nat) (b : Byte) : (s.writeSrc i b).srcLen = s.srcLen := rfl
@[simp] theorem State.writeSrc_dstLen (i : Nat) (b : Byte) : (s.writeSrc i b).dstLen = s.dstLen := rfl
@[simp] theorem State.writeSrc_valLo (i : Nat) (b : Byte) : (s.writeSrc i b).valLo = s.valLo := rfl
@[simp] theorem State.writeSrc_valHi (i : Nat) (b : Byte) : (s.writeSrc i b).valHi = s.valHi := rfl
@[simp] theorem State.writeSrc_srcCapr (i : Nat) (b : Byte) : (s.writeSrc i b).srcCapr = s.srcCapr := rfl
@[simp] theorem State.writeSrc_dstCapr (i : Nat) (b : Byte) : (s.writeSrc i b).dstCapr = s.dstCapr := rfl
@[simp] theorem State.writeSrc_src (i : Nat) (b : Byte) : (s.writeSrc i b).src = s.src.write i b := rfl
@[simp] theorem State.writeSrc_dst (i : Nat) (b : Byte) : (s.writeSrc i b).dst = s.dst := rfl
@[simp] theorem State.writeSrc_epoch (i : Nat) (b : Byte) : (s.writeSrc i b).epoch = s.epoch := rfl
@[simp] theorem State.writeSrc_draws (i : Nat) (b : Byte) : (s.writeSrc i b).draws = s.draws := rfl
@[simp] theorem State.writeSrc_pending (i : Nat) (b : Byte) : (s.writeSrc i b).pending = s.pending := rfl
@[simp] theorem State.writeSrc_reply (i : Nat) (b : Byte) : (s.writeSrc i b).reply = s.reply := rfl

@[simp] theorem State.writeDst_cmd (out : List Byte) : (s.writeDst out).cmd = s.cmd := rfl
@[simp] theorem State.writeDst_status (out : List Byte) : (s.writeDst out).status = s.status := rfl
@[simp] theorem State.writeDst_srcLen (out : List Byte) : (s.writeDst out).srcLen = s.srcLen := rfl
@[simp] theorem State.writeDst_dstLen (out : List Byte) : (s.writeDst out).dstLen = s.dstLen := rfl
@[simp] theorem State.writeDst_valLo (out : List Byte) : (s.writeDst out).valLo = s.valLo := rfl
@[simp] theorem State.writeDst_valHi (out : List Byte) : (s.writeDst out).valHi = s.valHi := rfl
@[simp] theorem State.writeDst_srcCapr (out : List Byte) : (s.writeDst out).srcCapr = s.srcCapr := rfl
@[simp] theorem State.writeDst_dstCapr (out : List Byte) : (s.writeDst out).dstCapr = s.dstCapr := rfl
@[simp] theorem State.writeDst_src (out : List Byte) : (s.writeDst out).src = s.src := rfl
@[simp] theorem State.writeDst_dst (out : List Byte) : (s.writeDst out).dst = s.dst.writePrefix out := rfl
@[simp] theorem State.writeDst_epoch (out : List Byte) : (s.writeDst out).epoch = s.epoch := rfl
@[simp] theorem State.writeDst_draws (out : List Byte) : (s.writeDst out).draws = s.draws := rfl
@[simp] theorem State.writeDst_pending (out : List Byte) : (s.writeDst out).pending = s.pending := rfl
@[simp] theorem State.writeDst_reply (out : List Byte) : (s.writeDst out).reply = s.reply := rfl

@[simp] theorem State.drawDst_cmd (d : Nat) : (s.drawDst d).cmd = s.cmd := rfl
@[simp] theorem State.drawDst_status (d : Nat) : (s.drawDst d).status = s.status := rfl
@[simp] theorem State.drawDst_srcLen (d : Nat) : (s.drawDst d).srcLen = s.srcLen := rfl
@[simp] theorem State.drawDst_dstLen (d : Nat) : (s.drawDst d).dstLen = s.dstLen := rfl
@[simp] theorem State.drawDst_valLo (d : Nat) : (s.drawDst d).valLo = s.valLo := rfl
@[simp] theorem State.drawDst_valHi (d : Nat) : (s.drawDst d).valHi = s.valHi := rfl
@[simp] theorem State.drawDst_srcCapr (d : Nat) : (s.drawDst d).srcCapr = s.srcCapr := rfl
@[simp] theorem State.drawDst_dstCapr (d : Nat) : (s.drawDst d).dstCapr = s.dstCapr := rfl
@[simp] theorem State.drawDst_src (d : Nat) : (s.drawDst d).src = s.src := rfl
@[simp] theorem State.drawDst_dst (d : Nat) : (s.drawDst d).dst = s.dst.writePrefix ((List.range d).map fun j => Config.errorDstByte (s.draws + j)) := rfl
@[simp] theorem State.drawDst_epoch (d : Nat) : (s.drawDst d).epoch = s.epoch := rfl
@[simp] theorem State.drawDst_draws (d : Nat) : (s.drawDst d).draws = s.draws + d := rfl
@[simp] theorem State.drawDst_pending (d : Nat) : (s.drawDst d).pending = s.pending := rfl
@[simp] theorem State.drawDst_reply (d : Nat) : (s.drawDst d).reply = s.reply := rfl

@[simp] theorem State.writeVal_cmd (v : DWord) : (s.writeVal v).cmd = s.cmd := rfl
@[simp] theorem State.writeVal_status (v : DWord) : (s.writeVal v).status = s.status := rfl
@[simp] theorem State.writeVal_srcLen (v : DWord) : (s.writeVal v).srcLen = s.srcLen := rfl
@[simp] theorem State.writeVal_dstLen (v : DWord) : (s.writeVal v).dstLen = s.dstLen := rfl
@[simp] theorem State.writeVal_valLo (v : DWord) : (s.writeVal v).valLo = v.extractLsb' 0 32 := rfl
@[simp] theorem State.writeVal_valHi (v : DWord) : (s.writeVal v).valHi = v.extractLsb' 32 32 := rfl
@[simp] theorem State.writeVal_srcCapr (v : DWord) : (s.writeVal v).srcCapr = s.srcCapr := rfl
@[simp] theorem State.writeVal_dstCapr (v : DWord) : (s.writeVal v).dstCapr = s.dstCapr := rfl
@[simp] theorem State.writeVal_src (v : DWord) : (s.writeVal v).src = s.src := rfl
@[simp] theorem State.writeVal_dst (v : DWord) : (s.writeVal v).dst = s.dst := rfl
@[simp] theorem State.writeVal_epoch (v : DWord) : (s.writeVal v).epoch = s.epoch := rfl
@[simp] theorem State.writeVal_draws (v : DWord) : (s.writeVal v).draws = s.draws := rfl
@[simp] theorem State.writeVal_pending (v : DWord) : (s.writeVal v).pending = s.pending := rfl
@[simp] theorem State.writeVal_reply (v : DWord) : (s.writeVal v).reply = s.reply := rfl

@[simp] theorem State.finish_cmd (len : Nat) : (s.finish len).cmd = s.cmd := rfl
@[simp] theorem State.finish_status (len : Nat) : (s.finish len).status = statusWord .ok 0 := rfl
@[simp] theorem State.finish_srcLen (len : Nat) : (s.finish len).srcLen = s.srcLen := rfl
@[simp] theorem State.finish_dstLen (len : Nat) : (s.finish len).dstLen = BitVec.ofNat 32 len := rfl
@[simp] theorem State.finish_valLo (len : Nat) : (s.finish len).valLo = s.valLo := rfl
@[simp] theorem State.finish_valHi (len : Nat) : (s.finish len).valHi = s.valHi := rfl
@[simp] theorem State.finish_srcCapr (len : Nat) : (s.finish len).srcCapr = s.srcCapr := rfl
@[simp] theorem State.finish_dstCapr (len : Nat) : (s.finish len).dstCapr = s.dstCapr := rfl
@[simp] theorem State.finish_src (len : Nat) : (s.finish len).src = s.src := rfl
@[simp] theorem State.finish_dst (len : Nat) : (s.finish len).dst = s.dst := rfl
@[simp] theorem State.finish_epoch (len : Nat) : (s.finish len).epoch = s.epoch := rfl
@[simp] theorem State.finish_draws (len : Nat) : (s.finish len).draws = s.draws := rfl
@[simp] theorem State.finish_pending (len : Nat) : (s.finish len).pending = s.pending := rfl
@[simp] theorem State.finish_reply (len : Nat) : (s.finish len).reply = s.reply := rfl

@[simp] theorem State.raise_cmd (code : StatusCode) (b : Byte) : (s.raise code b).cmd = s.cmd := rfl
@[simp] theorem State.raise_status (code : StatusCode) (b : Byte) : (s.raise code b).status = statusWord code b := rfl
@[simp] theorem State.raise_srcLen (code : StatusCode) (b : Byte) : (s.raise code b).srcLen = s.srcLen := rfl
@[simp] theorem State.raise_dstLen (code : StatusCode) (b : Byte) : (s.raise code b).dstLen = 0 := rfl
@[simp] theorem State.raise_valLo (code : StatusCode) (b : Byte) : (s.raise code b).valLo = s.valLo := rfl
@[simp] theorem State.raise_valHi (code : StatusCode) (b : Byte) : (s.raise code b).valHi = s.valHi := rfl
@[simp] theorem State.raise_srcCapr (code : StatusCode) (b : Byte) : (s.raise code b).srcCapr = s.srcCapr := rfl
@[simp] theorem State.raise_dstCapr (code : StatusCode) (b : Byte) : (s.raise code b).dstCapr = s.dstCapr := rfl
@[simp] theorem State.raise_src (code : StatusCode) (b : Byte) : (s.raise code b).src = s.src := rfl
@[simp] theorem State.raise_dst (code : StatusCode) (b : Byte) : (s.raise code b).dst = s.dst := rfl
@[simp] theorem State.raise_epoch (code : StatusCode) (b : Byte) : (s.raise code b).epoch = s.epoch := rfl
@[simp] theorem State.raise_draws (code : StatusCode) (b : Byte) : (s.raise code b).draws = s.draws := rfl
@[simp] theorem State.raise_pending (code : StatusCode) (b : Byte) : (s.raise code b).pending = s.pending := rfl
@[simp] theorem State.raise_reply (code : StatusCode) (b : Byte) : (s.raise code b).reply = s.reply := rfl

@[simp] theorem State.illegalCommand_cmd : s.illegalCommand.cmd = s.cmd := rfl
@[simp] theorem State.illegalCommand_status : s.illegalCommand.status = statusWord .illegalCmd 0 := rfl
@[simp] theorem State.illegalCommand_srcLen : s.illegalCommand.srcLen = s.srcLen := rfl
@[simp] theorem State.illegalCommand_dstLen : s.illegalCommand.dstLen = 0 := rfl
@[simp] theorem State.illegalCommand_valLo : s.illegalCommand.valLo = s.valLo := rfl
@[simp] theorem State.illegalCommand_valHi : s.illegalCommand.valHi = s.valHi := rfl
@[simp] theorem State.illegalCommand_srcCapr : s.illegalCommand.srcCapr = s.srcCapr := rfl
@[simp] theorem State.illegalCommand_dstCapr : s.illegalCommand.dstCapr = s.dstCapr := rfl
@[simp] theorem State.illegalCommand_src : s.illegalCommand.src = s.src := rfl
@[simp] theorem State.illegalCommand_dst : s.illegalCommand.dst = s.dst := rfl
@[simp] theorem State.illegalCommand_epoch : s.illegalCommand.epoch = s.epoch := rfl
@[simp] theorem State.illegalCommand_draws : s.illegalCommand.draws = s.draws := rfl
@[simp] theorem State.illegalCommand_pending : s.illegalCommand.pending = s.pending := rfl
@[simp] theorem State.illegalCommand_reply : s.illegalCommand.reply = s.reply := rfl

@[simp] theorem State.placeCommand_cmd (w : Word) : (s.placeCommand w).cmd = s.cmd := rfl
@[simp] theorem State.placeCommand_status (w : Word) : (s.placeCommand w).status = s.status := rfl
@[simp] theorem State.placeCommand_srcLen (w : Word) : (s.placeCommand w).srcLen = s.srcLen := rfl
@[simp] theorem State.placeCommand_dstLen (w : Word) : (s.placeCommand w).dstLen = s.dstLen := rfl
@[simp] theorem State.placeCommand_valLo (w : Word) : (s.placeCommand w).valLo = s.valLo := rfl
@[simp] theorem State.placeCommand_valHi (w : Word) : (s.placeCommand w).valHi = s.valHi := rfl
@[simp] theorem State.placeCommand_srcCapr (w : Word) : (s.placeCommand w).srcCapr = s.srcCapr := rfl
@[simp] theorem State.placeCommand_dstCapr (w : Word) : (s.placeCommand w).dstCapr = s.dstCapr := rfl
@[simp] theorem State.placeCommand_src (w : Word) : (s.placeCommand w).src = s.src := rfl
@[simp] theorem State.placeCommand_dst (w : Word) : (s.placeCommand w).dst = s.dst := rfl
@[simp] theorem State.placeCommand_epoch (w : Word) : (s.placeCommand w).epoch = s.epoch := rfl
@[simp] theorem State.placeCommand_draws (w : Word) : (s.placeCommand w).draws = s.draws := rfl
@[simp] theorem State.placeCommand_pending (w : Word) : (s.placeCommand w).pending = .write .b4 cmdAddr (w.setWidth 64) :: s.pending := rfl
@[simp] theorem State.placeCommand_reply (w : Word) : (s.placeCommand w).reply = s.reply := rfl

@[simp] theorem State.writeReg_cmd (w : Word) : s.writeReg .cmd w = { s with cmd := w } := rfl
@[simp] theorem State.readReg_cmd : s.readReg .cmd = s.cmd := rfl
@[simp] theorem State.writeReg_status (w : Word) : s.writeReg .status w = s := rfl
@[simp] theorem State.readReg_status : s.readReg .status = s.status := rfl
@[simp] theorem State.writeReg_srcLen (w : Word) : s.writeReg .srcLen w = { s with srcLen := w } := rfl
@[simp] theorem State.readReg_srcLen : s.readReg .srcLen = s.srcLen := rfl
@[simp] theorem State.writeReg_dstLen (w : Word) : s.writeReg .dstLen w = s := rfl
@[simp] theorem State.readReg_dstLen : s.readReg .dstLen = s.dstLen := rfl
@[simp] theorem State.writeReg_valLo (w : Word) : s.writeReg .valLo w = { s with valLo := w } := rfl
@[simp] theorem State.readReg_valLo : s.readReg .valLo = s.valLo := rfl
@[simp] theorem State.writeReg_valHi (w : Word) : s.writeReg .valHi w = { s with valHi := w } := rfl
@[simp] theorem State.readReg_valHi : s.readReg .valHi = s.valHi := rfl
@[simp] theorem State.writeReg_srcCapr (w : Word) : s.writeReg .srcCapr w = s := rfl
@[simp] theorem State.readReg_srcCapr : s.readReg .srcCapr = s.srcCapr := rfl
@[simp] theorem State.writeReg_dstCapr (w : Word) : s.writeReg .dstCapr w = s := rfl
@[simp] theorem State.readReg_dstCapr : s.readReg .dstCapr = s.dstCapr := rfl

@[simp] theorem State.hostReset_cmd : s.hostReset.cmd = 0 := rfl
@[simp] theorem State.hostReset_status : s.hostReset.status = 0 := rfl
@[simp] theorem State.hostReset_srcLen : s.hostReset.srcLen = 0 := rfl
@[simp] theorem State.hostReset_dstLen : s.hostReset.dstLen = 0 := rfl
@[simp] theorem State.hostReset_valLo : s.hostReset.valLo = 0 := rfl
@[simp] theorem State.hostReset_valHi : s.hostReset.valHi = 0 := rfl
@[simp] theorem State.hostReset_srcCapr : s.hostReset.srcCapr = s.srcCapr := rfl
@[simp] theorem State.hostReset_dstCapr : s.hostReset.dstCapr = s.dstCapr := rfl
@[simp] theorem State.hostReset_src : s.hostReset.src = [] := rfl
@[simp] theorem State.hostReset_dst : s.hostReset.dst = [] := rfl
@[simp] theorem State.hostReset_epoch : s.hostReset.epoch = s.epoch + 1 := rfl
@[simp] theorem State.hostReset_draws : s.hostReset.draws = s.draws := rfl
@[simp] theorem State.hostReset_pending : s.hostReset.pending = s.pending := rfl
@[simp] theorem State.hostReset_reply : s.hostReset.reply = .nothing := rfl

end Sys2Proof.Machine
end

