-- ==== Sys2Proof/Laws/Memory.lean ====
section
/-! SUPPORT. The laws of the buffers: a read after a write, and the canonical form, kept by every operation. -/

namespace Sys2Proof.Machine

theorem Memory.read?_write (m : Memory) (i j : Nat) (b : Byte) :
    (m.write i b).read? j = if i = j then some b else m.read? j := by
  induction m with
  | nil => simp [Memory.write, Memory.read?]
  | cons c m ih =>
    unfold Memory.write
    split
    · simp [Memory.read?]
    · split
      · next h => subst h; by_cases hj : c.1 = j <;> simp [Memory.read?, hj]
      · next h =>
        by_cases hj : c.1 = j
        · have : i ≠ j := fun e => h (e.trans hj.symm)
          simp [Memory.read?, hj, this]
        · simp [Memory.read?, hj, ih]

theorem Memory.read?_append (m m' : Memory) (j : Nat) :
    Memory.read? (m ++ m') j = (m.read? j).or (m'.read? j) := by
  induction m with
  | nil => simp [Memory.read?]
  | cons c m ih => by_cases h : c.1 = j <;> simp [Memory.read?, h, ih]

theorem Memory.read?_cellsFrom (i j : Nat) (bs : List Byte) :
    (Memory.cellsFrom i bs).read? j = if i ≤ j then bs[j - i]? else none := by
  induction bs generalizing i with
  | nil => simp [Memory.cellsFrom, Memory.read?]
  | cons b bs ih =>
    by_cases h : i = j
    · simp [Memory.cellsFrom, Memory.read?, h]
    · rw [Memory.cellsFrom, Memory.read?, if_neg h, ih]
      by_cases hle : i ≤ j
      · have : j - i = (j - (i + 1)) + 1 := by omega
        rw [if_pos (by omega), if_pos hle, this, List.getElem?_cons_succ]
      · rw [if_neg (by omega), if_neg hle]

theorem Memory.read?_filter_ge (m : Memory) (k j : Nat) (h : k ≤ j) :
    Memory.read? (m.filter fun c => k ≤ c.1) j = m.read? j := by
  induction m with
  | nil => rfl
  | cons c m ih =>
    by_cases hk : k ≤ c.1
    · simp [hk, Memory.read?, ih]
    · have : c.1 ≠ j := by omega
      simp [hk, Memory.read?, ih, this]

/-- After a prefix write, an index below the prefix holds its byte and every other one what it held. -/
theorem Memory.read?_writePrefix (m : Memory) (out : List Byte) (j : Nat) :
    (m.writePrefix out).read? j = if j < out.length then out[j]? else m.read? j := by
  rw [Memory.writePrefix, Memory.read?_append, Memory.read?_cellsFrom]
  by_cases h : j < out.length
  · simp [h]
  · simp [h, Memory.read?_filter_ge m out.length j (by omega)]

theorem Memory.mem_write {m : Memory} {i : Nat} {b : Byte} {c : Host.Cell} (h : c ∈ m.write i b) :
    c = (i, b) ∨ c ∈ m := by
  induction m with
  | nil => simpa [Memory.write] using h
  | cons a m ih =>
    unfold Memory.write at h
    split at h
    · simpa using h
    · split at h
      · rcases List.mem_cons.1 h with h | h <;> simp [h]
      · rcases List.mem_cons.1 h with h | h
        · simp [h]
        · rcases ih h with h | h <;> simp [h]

/-- A one-byte write keeps the canonical form. -/
theorem Memory.wf_write {m : Memory} (h : m.wf) (i : Nat) (b : Byte) : (m.write i b).wf := by
  induction m with
  | nil => simp [Memory.write]
  | cons c m ih =>
    have ⟨hc, hm⟩ := List.pairwise_cons.1 h
    unfold Memory.write
    split
    · next hlt =>
      refine List.pairwise_cons.2 ⟨fun d hd => ?_, h⟩
      rcases List.mem_cons.1 hd with rfl | hd
      · exact hlt
      · exact hlt.trans (hc d hd)
    · split
      · next heq => exact List.pairwise_cons.2 ⟨fun d hd => heq ▸ hc d hd, hm⟩
      · next h1 h2 =>
        refine List.pairwise_cons.2 ⟨fun d hd => ?_, ih hm⟩
        rcases Memory.mem_write hd with rfl | hd
        · show c.1 < i; omega
        · exact hc d hd

theorem Memory.mem_cellsFrom {i : Nat} {bs : List Byte} {c : Host.Cell} (h : c ∈ Memory.cellsFrom i bs) :
    i ≤ c.1 ∧ c.1 < i + bs.length := by
  induction bs generalizing i with
  | nil => simp [Memory.cellsFrom] at h
  | cons b bs ih =>
    rcases List.mem_cons.1 h with rfl | h
    · simp
    · have := ih h; simp only [List.length_cons]; omega

theorem Memory.wf_cellsFrom (i : Nat) (bs : List Byte) : (Memory.cellsFrom i bs).wf := by
  induction bs generalizing i with
  | nil => simp [Memory.cellsFrom]
  | cons b bs ih =>
    exact List.pairwise_cons.2 ⟨fun c hc => Nat.lt_of_succ_le (Memory.mem_cellsFrom hc).1, ih (i + 1)⟩

theorem Memory.mem_writePrefix {m : Memory} {out : List Byte} {c : Host.Cell} (h : c ∈ m.writePrefix out) :
    c.1 < out.length ∨ c ∈ m := by
  rcases List.mem_append.1 h with h | h
  · have := Memory.mem_cellsFrom h; omega
  · exact .inr (List.mem_filter.1 h).1

/-- A prefix write keeps the canonical form. -/
theorem Memory.wf_writePrefix {m : Memory} (h : m.wf) (out : List Byte) : (m.writePrefix out).wf := by
  refine List.pairwise_append.2 ⟨Memory.wf_cellsFrom 0 out, h.filter _, fun a ha b hb => ?_⟩
  have := (Memory.mem_cellsFrom ha).2
  have := of_decide_eq_true (List.mem_filter.1 hb).2
  omega

theorem State.reset_src_wf : State.reset.src.wf := List.Pairwise.nil

theorem State.reset_dst_wf : State.reset.dst.wf := List.Pairwise.nil

/-! ### The bytes of the buffers -/

theorem State.srcByte_writeSrc (s : State) (i j : Nat) (b : Byte) :
    (s.writeSrc i b).srcByte j = if i = j then b else s.srcByte j := by
  unfold State.srcByte
  rw [State.writeSrc_src, State.writeSrc_epoch, Memory.read?_write]
  split <;> rfl

/-- After a destination write, an index below the output holds its byte and every other one what it held. -/
theorem State.dstByte_writeDst (s : State) (out : List Byte) (j : Nat) :
    (s.writeDst out).dstByte j = out[j]?.getD (s.dstByte j) := by
  unfold State.dstByte
  rw [State.writeDst_dst, State.writeDst_epoch, Memory.read?_writePrefix]
  split
  · next h => simp [h]
  · next h => simp [List.getElem?_eq_none (Nat.le_of_not_lt h)]

/-- After a draw, an index below the bound holds its draw and every other one what it held. -/
theorem State.dstByte_drawDst (s : State) (d j : Nat) :
    (s.drawDst d).dstByte j = if j < d then Config.errorDstByte (s.draws + j) else s.dstByte j := by
  have : (s.drawDst d).dstByte j
      = (s.writeDst ((List.range d).map fun j => Config.errorDstByte (s.draws + j))).dstByte j := rfl
  rw [this, State.dstByte_writeDst]
  by_cases h : j < d
  · simp [h]
  · simp [h]

theorem State.srcByte_congr {s t : State} (h : t.src = s.src) (he : t.epoch = s.epoch) (i : Nat) :
    t.srcByte i = s.srcByte i := by unfold State.srcByte; rw [h, he]

theorem State.dstByte_congr {s t : State} (h : t.dst = s.dst) (he : t.epoch = s.epoch) (i : Nat) :
    t.dstByte i = s.dstByte i := by unfold State.dstByte; rw [h, he]

end Sys2Proof.Machine
end

