-- ==== Sys2Proof/Laws/Ops.lean ====
section
/-! SUPPORT. What the shared operations of the machine can do: STATUS words, what each update keeps, and one lemma per
way a command ends. -/

namespace Sys2Proof.Machine

/-! ### STATUS words -/

theorem statusWord_ok : statusWord .ok 0 = 0x80000000#32 := by decide

/-- A STATUS word as a number: 0x8000_0000 | b << 8 | E (R212). -/
theorem statusWord_toNat (c : StatusCode) (b : Byte) :
    (statusWord c b).toNat = 0x80000000 + b.toNat * 256 + c.bits.toNat := by
  have hb := b.isLt
  have hc : c.bits.toNat < 16 := c.bits.isLt
  have h1 : ∀ x y : Nat, y < 16 → x <<< 4 ||| y = x * 16 + y := fun x y h => by
    rw [← Nat.shiftLeft_add_eq_or_of_lt (i := 4) h, Nat.shiftLeft_eq]
  have h2 : ∀ x y : Nat, y < 256 → x <<< 8 ||| y = x * 256 + y := fun x y h => by
    rw [← Nat.shiftLeft_add_eq_or_of_lt (i := 8) h, Nat.shiftLeft_eq]
  unfold statusWord
  simp only [BitVec.toNat_append]
  rw [h1 _ _ hc, h1 _ _ (by decide), h2 _ _ hb]
  simp only [BitVec.toNat_ofNat]
  norm_num
  omega

theorem StatusCode.bits_toNat_le (c : StatusCode) : c.bits.toNat ≤ 6 := by cases c <;> decide

/-- STATUS.CODE of a STATUS word a command leaves. -/
theorem statusWord_code (c : StatusCode) (b : Byte) : (statusWord c b).toNat % 16 = c.bits.toNat := by
  have := c.bits_toNat_le
  rw [statusWord_toNat]; omega

/-- A STATUS word a command leaves is legal when only INVALID_BYTE and ALPHABET carry a byte (R212). -/
theorem statusWord_legal (c : StatusCode) (b : Byte) (h : b ≠ 0 → c = .invalidByte ∨ c = .alphabet) :
    StatusLegal (statusWord c b) := by
  have key : ∀ (c : StatusCode) (b : Byte), statusDone (statusWord c b) = true ∧ statusReserved (statusWord c b) = 0 ∧
      statusCode (statusWord c b) = c.bits ∧ statusByte (statusWord c b) = b := by
    intro c; cases c <;> decide +kernel
  obtain ⟨h1, h2, h3, h4⟩ := key c b
  refine .inr ⟨h1, h2, h3 ▸ c.bits_toNat_le, fun hb => ?_⟩
  rw [h4] at hb
  rw [h3]
  rcases h hb with rfl | rfl <;> decide

/-! ### What each update keeps -/

theorem KeepsInputs.refl (s : State) : KeepsInputs s s := ⟨rfl, rfl, rfl, rfl, rfl, fun _ => rfl, rfl, rfl, rfl⟩

theorem KeepsInputs.writeDst (s : State) (out : List Byte) : KeepsInputs s (s.writeDst out) := KeepsInputs.refl s

theorem KeepsInputs.drawDst (s : State) (d : Nat) : KeepsInputs s (s.drawDst d) := KeepsInputs.refl s

theorem KeepsInputs.writeVal (s : State) (v : DWord) : KeepsInputs s (s.writeVal v) := KeepsInputs.refl s

theorem KeepsInputs.finish {s t : State} (h : KeepsInputs s t) (len : Nat) : KeepsInputs s (t.finish len) := h

theorem KeepsInputs.raise {s t : State} (h : KeepsInputs s t) (c : StatusCode) (b : Byte) :
    KeepsInputs s (t.raise c b) := h

theorem Finished.finish (s : State) {len : Nat} (h : len < 2 ^ 32) : Finished len (s.finish len) :=
  ⟨statusWord_ok, by simpa using h⟩

theorem Raised.raise (s : State) (c : StatusCode) (b : Byte) : Raised c.bits.toNat b (s.raise c b) :=
  ⟨statusWord_toNat c b, rfl⟩

theorem KeepsDstFrom.writeDst (s : State) (out : List Byte) (len : Nat) (h : out.length ≤ len) (k : Nat) :
    KeepsDstFrom len s ((s.writeDst out).finish k) := fun i hi => by
  have : ((s.writeDst out).finish k).dstByte i = (s.writeDst out).dstByte i := rfl
  rw [this, State.dstByte_writeDst, List.getElem?_eq_none (by omega)]; rfl

theorem KeepsDstFrom.drawDst (s : State) (d : Nat) (c : StatusCode) (b : Byte) :
    KeepsDstFrom d s ((s.drawDst d).raise c b) := fun i hi => by
  have : ((s.drawDst d).raise c b).dstByte i = (s.drawDst d).dstByte i := rfl
  rw [this, State.dstByte_drawDst, if_neg (by omega)]

/-! ### The ways a command ends -/

variable (s : State) {n len bound : Nat}

theorem State.endEncode_range (out : List Byte) (h : s.srcCapr.toNat < n ∨ s.dstCapr.toNat < len) :
    s.endEncode n len out = s.raise .range 0 := by
  unfold State.endEncode; split
  · rfl
  · rw [if_pos (by omega)]

theorem State.endEncode_ok (out : List Byte) (h : ¬ (s.srcCapr.toNat < n ∨ s.dstCapr.toNat < len)) :
    s.endEncode n len out = (s.writeDst out).finish len := by
  unfold State.endEncode; rw [if_neg (by omega), if_neg (by omega)]

theorem State.endDecode_range (r : Except CodecError (List Byte)) (h : s.srcCapr.toNat < n ∨ s.dstCapr.toNat < bound) :
    s.endDecode n bound r = s.raise .range 0 := by
  unfold State.endDecode; split
  · rfl
  · rw [if_pos (by omega)]

theorem State.endDecode_ok (out : List Byte) (h : ¬ (s.srcCapr.toNat < n ∨ s.dstCapr.toNat < bound)) :
    s.endDecode n bound (.ok out) = (s.writeDst out).finish out.length := by
  unfold State.endDecode; rw [if_neg (by omega), if_neg (by omega)]

theorem State.endDecode_invalidByte (b : Byte) (h : ¬ (s.srcCapr.toNat < n ∨ s.dstCapr.toNat < bound)) :
    s.endDecode n bound (.error (.invalidByte b)) = (s.drawDst bound).raise .invalidByte b := by
  unfold State.endDecode; rw [if_neg (by omega), if_neg (by omega)]

theorem State.endDecode_oddLength (h : ¬ (s.srcCapr.toNat < n ∨ s.dstCapr.toNat < bound)) :
    s.endDecode n bound (.error .oddLength) = (s.drawDst bound).raise .oddLength 0 := by
  unfold State.endDecode; rw [if_neg (by omega), if_neg (by omega)]

theorem State.endDecode_invalidLength (h : ¬ (s.srcCapr.toNat < n ∨ s.dstCapr.toNat < bound)) :
    s.endDecode n bound (.error .invalidLength) = s.raise .invalidLength 0 := by
  unfold State.endDecode; rw [if_neg (by omega), if_neg (by omega)]

/-- VAL after a length command, as a number. -/
theorem valNat_endLength {v : Nat} (h : v < 2 ^ 64) : valNat (s.endLength v) = v := by
  have h1 : (s.endLength v).valLo.toNat = v % 2 ^ 32 := by
    show ((BitVec.ofNat 64 v).extractLsb' 0 32).toNat = _
    simp [BitVec.extractLsb'_toNat]
  have h2 : (s.endLength v).valHi.toNat = v / 2 ^ 32 := by
    show ((BitVec.ofNat 64 v).extractLsb' 32 32).toNat = _
    simp [BitVec.extractLsb'_toNat, Nat.shiftRight_eq_div_pow]
    omega
  unfold valNat; rw [h1, h2]; omega

@[simp] theorem State.n_srcBytes_length (k : Nat) : (s.srcBytes k).length = k := by simp [State.srcBytes]

@[simp] theorem State.srcBytes_getElem (k i : Nat) (h : i < (s.srcBytes k).length) :
    (s.srcBytes k)[i] = s.srcByte i := by simp [State.srcBytes]

theorem State.srcBytes_congr {s t : State} {k : Nat} (h : ∀ j < k, t.srcByte j = s.srcByte j) :
    t.srcBytes k = s.srcBytes k := by
  refine List.ext_getElem (by simp) fun i hi _ => ?_
  simpa using h i (by simpa using hi)

end Sys2Proof.Machine
end

