-- ==== Sys2Proof/Laws/Regroup.lean ====
section
/-! SUPPORT. What the regrouping operations give, symbol by symbol and byte by byte (R121, R122, R141, R142). -/

namespace Sys2Proof.Machine

/-! ### Lists in groups -/

/-- Group `g` of a sequence split into groups of `k`. -/
theorem groupsUpTo_getElem? {α : Type} {k : Nat} (hk : 0 < k) (f : Nat) (xs : List α) (h : xs.length ≤ f) (g : Nat) :
    (groupsUpTo k f xs)[g]? = if k * g < xs.length then some ((xs.drop (k * g)).take k) else none := by
  induction f generalizing xs g with
  | zero => simp [groupsUpTo, List.eq_nil_of_length_eq_zero (Nat.le_zero.1 h)]
  | succ f ih =>
    cases xs with
    | nil => simp [groupsUpTo]
    | cons x xs =>
      rw [groupsUpTo, if_neg (by simp)]
      cases g with
      | zero => simp
      | succ g =>
        have hlen : ((x :: xs).drop k).length = (x :: xs).length - k := List.length_drop
        rw [List.getElem?_cons_succ, ih _ (by rw [hlen]; simp only [List.length_cons] at *; omega), hlen,
          List.drop_drop, Nat.mul_succ, Nat.add_comm k]
        simp only [List.length_cons]
        by_cases hc : k * g + k < xs.length + 1
        · rw [if_pos hc, if_pos (by omega)]
        · rw [if_neg hc, if_neg (by omega)]

theorem groupsOf_getElem? {α : Type} {k : Nat} (hk : 0 < k) (xs : List α) (g : Nat) :
    (groupsOf k xs)[g]? = if k * g < xs.length then some ((xs.drop (k * g)).take k) else none :=
  groupsUpTo_getElem? hk _ _ (Nat.le_refl _) g

theorem groupsOf_length {α : Type} {k : Nat} (hk : 0 < k) (xs : List α) :
    (groupsOf k xs).length = (xs.length + k - 1) / k := by
  have h : ∀ g, g < (groupsOf k xs).length ↔ k * g < xs.length := fun g => by
    rw [← not_iff_not, not_lt, ← List.getElem?_eq_none_iff, groupsOf_getElem? hk]
    split <;> simp_all
  apply le_antisymm
  · by_contra hc
    have h1 := (h _).1 (not_le.1 hc)
    have h2 := Nat.div_add_mod (xs.length + k - 1) k
    have h3 := Nat.mod_lt (xs.length + k - 1) hk
    omega
  · by_contra hc
    have h1 := not_lt.1 ((not_congr (h _)).1 (lt_irrefl (groupsOf k xs).length))
    have h2 : (groupsOf k xs).length + 1 ≤ (xs.length + k - 1) / k := by omega
    have h3 := Nat.mul_le_of_le_div _ _ _ h2
    have h4 : ((groupsOf k xs).length + 1) * k = k * (groupsOf k xs).length + k := by ring
    omega

/-- Element `c*g + j` of pieces of `c` elements put together. -/
theorem flatMap_getElem?_const {α β : Type} (f : α → List β) (c : Nat) (l : List α) (hf : ∀ x ∈ l, (f x).length = c)
    (g j : Nat) (hj : j < c) : (l.flatMap f)[c * g + j]? = (l[g]?).bind fun x => (f x)[j]? := by
  induction l generalizing g with
  | nil => simp
  | cons x l ih =>
    have hx : (f x).length = c := hf x (by simp)
    cases g with
    | zero => simp [List.flatMap_cons, List.getElem?_append_left (by omega : j < (f x).length)]
    | succ g =>
      rw [List.flatMap_cons, List.getElem?_append_right (by rw [hx, Nat.mul_succ]; omega), hx]
      have : c * (g + 1) + j - c = c * g + j := by rw [Nat.mul_succ]; omega
      rw [this, ih (fun y hy => hf y (by simp [hy])), List.getElem?_cons_succ]

theorem flatMap_length_const {α β : Type} (f : α → List β) (c : Nat) (l : List α) (hf : ∀ x ∈ l, (f x).length = c) :
    (l.flatMap f).length = l.length * c := by
  induction l with
  | nil => simp
  | cons x l ih =>
    rw [List.flatMap_cons, List.length_append, ih fun y hy => hf y (by simp [hy]), hf x (by simp), List.length_cons]
    ring

/-- A number written digit by digit in base `B`, left-justified in `w` digits, as a sum. -/
theorem foldl_digits {α : Type} (f : α → Nat) (B w : Nat) (cs : List α) (h : cs.length ≤ w) :
    cs.foldl (fun v c => v * B + f c) 0 * B ^ (w - cs.length) =
      ((List.range cs.length).map fun i => (cs[i]?.elim 0 f) * B ^ (w - 1 - i)).sum := by
  induction cs using List.reverseRecOn with
  | nil => simp
  | append_singleton cs c ih =>
    rw [List.foldl_append, List.length_append, List.length_singleton, List.range_succ, List.map_append, List.sum_append]
    simp only [List.foldl_cons, List.foldl_nil, List.map_cons, List.map_nil, List.sum_cons, List.sum_nil, Nat.add_zero]
    rw [List.length_append, List.length_singleton] at h
    have e1 : ∀ i ∈ List.range cs.length, ((cs ++ [c])[i]?.elim 0 f) * B ^ (w - 1 - i) =
        (cs[i]?.elim 0 f) * B ^ (w - 1 - i) := fun i hi => by
      rw [List.getElem?_append_left (List.mem_range.1 hi)]
    rw [List.map_congr_left e1, ← ih (by omega), List.getElem?_concat_length]
    have e2 : w - cs.length = w - (cs.length + 1) + 1 := by omega
    have e3 : w - 1 - cs.length = w - (cs.length + 1) := by omega
    rw [e2, e3, pow_succ]
    simp only [Option.elim]
    ring

/-! ### Encoding -/

@[simp] theorem encodeGroup_length (g : Geometry) (alph bs : List Byte) :
    (encodeGroup g alph bs).length = g.symbols := by simp [encodeGroup]

/-- An encode gives a whole number of groups of symbols. -/
theorem encodeGroups_length (g : Geometry) (hg : 0 < g.bytes) (alph x : List Byte) :
    (encodeGroups g alph x).length = (x.length + g.bytes - 1) / g.bytes * g.symbols := by
  rw [encodeGroups, flatMap_length_const _ g.symbols _ fun _ _ => encodeGroup_length g alph _, groupsOf_length hg]

/-- Symbol `j` of group `i` of an encode. -/
theorem encodeGroups_getElem? (g : Geometry) (hg : 0 < g.bytes) (alph x : List Byte) (i j : Nat)
    (hi : g.bytes * i < x.length) (hj : j < g.symbols) :
    (encodeGroups g alph x)[g.symbols * i + j]? = (encodeGroup g alph ((x.drop (g.bytes * i)).take g.bytes))[j]? := by
  rw [encodeGroups, flatMap_getElem?_const _ g.symbols _ (fun _ _ => encodeGroup_length g alph _) i j hj,
    groupsOf_getElem? hg, if_pos hi]
  rfl

/-! ### Decoding -/

/-- Data symbols all in the alphabet accumulate to their number. -/
theorem accumulate_ok (bits : Nat) (dmap : Byte → Byte) (v : Nat) (cs : List Byte) (h : ∀ c ∈ cs, dmap c ≠ sentinel) :
    accumulate bits dmap v cs = .ok (cs.foldl (fun v c => v * 2 ^ bits + (dmap c).toNat) v) := by
  induction cs generalizing v with
  | nil => rfl
  | cons c cs ih =>
    rw [accumulate, if_neg (h c (by simp)), ih _ fun d hd => h d (by simp [hd])]; rfl

/-- The first data symbol outside the alphabet is the error. -/
theorem accumulate_error (bits : Nat) (dmap : Byte → Byte) (v : Nat) (as : List Byte) (c : Byte) (bs : List Byte)
    (h : ∀ a ∈ as, dmap a ≠ sentinel) (hc : dmap c = sentinel) :
    accumulate bits dmap v (as ++ c :: bs) = .error (.invalidByte c) := by
  induction as generalizing v with
  | nil => rw [List.nil_append, accumulate, if_pos hc]
  | cons a as ih =>
    rw [List.cons_append, accumulate, if_neg (h a (by simp)), ih _ fun d hd => h d (by simp [hd])]

theorem accumulate_ok_iff (bits : Nat) (dmap : Byte → Byte) (v : Nat) (cs : List Byte) :
    (∃ w, accumulate bits dmap v cs = .ok w) ↔ ∀ c ∈ cs, dmap c ≠ sentinel := by
  induction cs generalizing v with
  | nil => simp [accumulate]
  | cons c cs ih =>
    rw [accumulate]
    split
    · next h => simp [h]
    · next h => rw [ih]; simp [h]

@[simp] theorem beBytes_length (w m v : Nat) : (beBytes w m v).length = m := by simp [beBytes]

/-- The groups of a decode succeed when every group before the last and the last one do. -/
theorem decodeGroups_ok (g : Geometry) (dmap : Byte → Byte) (ts : List (List Byte)) (t : List Byte)
    (f : List Byte → List Byte) (last : List Byte) (hf : ∀ u ∈ ts, decodeFull g dmap u = .ok (f u))
    (hl : decodeFinal g dmap t = .ok last) :
    decodeGroups g dmap (ts ++ [t]) = .ok (ts.flatMap f ++ last) := by
  induction ts with
  | nil => simpa [decodeGroups] using hl
  | cons u ts ih =>
    have hu := hf u (by simp)
    have ih := ih fun w hw => hf w (by simp [hw])
    cases ts with
    | nil => simp [decodeGroups, hu, hl]
    | cons w ts =>
      rw [List.cons_append, List.cons_append, decodeGroups, hu]
      simp only [List.cons_append] at ih
      simp [ih, List.flatMap_cons]

/-- The first failing group ends a decode with its error. -/
theorem decodeGroups_error (g : Geometry) (dmap : Byte → Byte) (ts : List (List Byte)) (t : List Byte)
    (us : List (List Byte)) (f : List Byte → List Byte) (e : CodecError)
    (hf : ∀ u ∈ ts, decodeFull g dmap u = .ok (f u))
    (hl : us = [] → decodeFinal g dmap t = .error e) (hm : us ≠ [] → decodeFull g dmap t = .error e) :
    decodeGroups g dmap (ts ++ t :: us) = .error e := by
  induction ts with
  | nil =>
    cases us with
    | nil => simpa [decodeGroups] using hl rfl
    | cons u us => simp [decodeGroups, hm (by simp)]
  | cons u ts ih =>
    have hu := hf u (by simp)
    have ih := ih fun w hw => hf w (by simp [hw])
    cases ts with
    | nil => simp only [List.nil_append] at ih; simp [decodeGroups, hu, ih]
    | cons w ts =>
      rw [List.cons_append, List.cons_append, decodeGroups, hu]
      simp only [List.cons_append] at ih
      simp [ih]

/-- A decode never gives more than `bytes` bytes per group, when no final group does. -/
theorem decodeGroups_length_le (g : Geometry) (dmap : Byte → Byte) (hg : ∀ k, k ≤ g.symbols → g.bits * k / 8 ≤ g.bytes)
    (gs : List (List Byte)) (hs : ∀ t ∈ gs, t.length ≤ g.symbols) (out : List Byte)
    (h : decodeGroups g dmap gs = .ok out) : out.length ≤ gs.length * g.bytes := by
  induction gs generalizing out with
  | nil => simp only [decodeGroups, Except.ok.injEq] at h; subst h; simp
  | cons t gs ih =>
    cases gs with
    | nil =>
      simp only [decodeGroups, decodeFinal] at h
      split at h
      · cases h
      · split at h
        · cases h
        · split at h
          · cases h
          · cases h
            rw [beBytes_length, List.length_singleton, Nat.one_mul]
            refine hg _ ?_
            exact (List.takeWhile_sublist _).length_le.trans (hs t (by simp))
    | cons u gs =>
      rw [decodeGroups] at h
      split at h
      · cases h
      · next a ha =>
        split at h
        · cases h
        · next b hb =>
          cases h
          have h1 := ih (fun w hw => hs w (by simp [hw])) b hb
          have h2 : a.length = g.bytes := by
            rw [decodeFull] at ha
            split at ha
            · cases ha
            · cases ha; simp
          rw [List.length_append, h2, List.length_cons]
          have : (gs.length + 1 + 1) * g.bytes = (gs.length + 1) * g.bytes + g.bytes := by ring
          rw [List.length_cons] at h1
          rw [List.length_cons]; omega

theorem groupsOf_mem_length {α : Type} {k : Nat} (hk : 0 < k) (xs t : List α) (h : t ∈ groupsOf k xs) :
    t.length ≤ k := by
  obtain ⟨i, hi⟩ := List.mem_iff_getElem?.1 h
  rw [groupsOf_getElem? hk] at hi
  split at hi
  · cases hi; simp
  · cases hi

/-- A base32 decode fits its bound (R128). -/
theorem b32Decode_length_le (alph x out : List Byte) (h : b32Decode alph x = .ok out) :
    out.length ≤ x.length / 8 * 5 := by
  rw [b32Decode] at h
  split at h
  · cases h
  · next hn =>
    have h1 := decodeGroups_length_le b32Geometry _ (fun k hk => by simp only [b32Geometry] at *; omega) _
      (fun t ht => groupsOf_mem_length (by decide) _ _ ht) out h
    rw [groupsOf_length (by decide)] at h1
    simp only [b32Geometry] at h1
    omega

/-- A base64 decode fits its bound (R148). -/
theorem b64Decode_length_le (alph x out : List Byte) (h : b64Decode alph x = .ok out) :
    out.length ≤ x.length / 4 * 3 := by
  rw [b64Decode] at h
  split at h
  · cases h
  · next hn =>
    have h1 := decodeGroups_length_le b64Geometry _ (fun k hk => by simp only [b64Geometry] at *; omega) _
      (fun t ht => groupsOf_mem_length (by decide) _ _ ht) out h
    rw [groupsOf_length (by decide)] at h1
    simp only [b64Geometry] at h1
    omega

end Sys2Proof.Machine
end

