-- ==== Sys2Proof/Laws/Codecs.lean ====
section
/-! SUPPORT. The codec functions and tables: their lengths and what they give at an index. -/

namespace Sys2Proof.Machine

/-! ### Hex (R100, R101) -/

@[simp] theorem hexEncode_length (x : List Byte) : (hexEncode x).length = 2 * x.length := by
  rw [hexEncode, flatMap_length_const _ 2 _ (fun _ _ => rfl)]; ring

theorem hexEncode_getElem? (x : List Byte) (i : Nat) :
    (hexEncode x)[2 * i]? = x[i]?.map (fun b => symbol hexAlph (b.toNat / 16)) ∧
    (hexEncode x)[2 * i + 1]? = x[i]?.map (fun b => symbol hexAlph (b.toNat % 16)) := by
  constructor
  · rw [hexEncode, show 2 * i = 2 * i + 0 from rfl, flatMap_getElem?_const _ 2 _ (fun _ _ => rfl) i 0 (by decide)]
    cases x[i]? <;> rfl
  · rw [hexEncode, flatMap_getElem?_const _ 2 _ (fun _ _ => rfl) i 1 (by decide)]
    cases x[i]? <;> rfl

theorem hexDecode_length {x out : List Byte} (h : hexDecode x = .ok out) : 2 * out.length = x.length := by
  induction x using hexDecode.induct generalizing out with
  | case1 => simp only [hexDecode, Except.ok.injEq] at h; subst h; rfl
  | case2 c hc => simp [hexDecode, hc] at h
  | case3 c hc => simp [hexDecode, hc] at h
  | case4 p q rest hp => simp [hexDecode, hp] at h
  | case5 p q rest hp hq => simp [hexDecode, hp, hq] at h
  | case6 p q rest hp hq e he => simp [hexDecode, hp, hq, he] at h
  | case7 p q rest hp hq b hb ih =>
    simp only [hexDecode, hp, hq, hb, if_false, Except.ok.injEq] at h
    subst h
    have := ih hb
    simp only [List.length_cons]; omega

/-! ### Base32 and base64 (R121, R141) -/

@[simp] theorem b32Encode_length (alph x : List Byte) : (b32Encode alph x).length = b32EncLen x.length :=
  encodeGroups_length b32Geometry (by decide) alph x

@[simp] theorem b64Encode_length (alph x : List Byte) : (b64Encode alph x).length = b64EncLen x.length :=
  encodeGroups_length b64Geometry (by decide) alph x

theorem b32EncLen_eq (n : Nat) : b32EncLen n = (n + 4) / 5 * 8 := rfl

theorem b64EncLen_eq (n : Nat) : b64EncLen n = (n + 2) / 3 * 4 := rfl

/-! ### Integers (R160, R161) -/

@[simp] theorem intEncode_length (w : Nat) (o : ByteOrder) (v : DWord) : (intEncode w o v).length = w := by
  cases o <;> simp [intEncode]

theorem valueByte_toNat (v : DWord) (i : Nat) : (valueByte v i).toNat = v.toNat / 2 ^ (8 * i) % 256 := by
  simp [valueByte, BitVec.extractLsb'_toNat, Nat.shiftRight_eq_div_pow]

theorem leValue_lt (b : List Byte) : leValue b < 256 ^ b.length := by
  induction b with
  | nil => simp [leValue]
  | cons x b ih =>
    have := x.isLt
    rw [leValue, List.length_cons, pow_succ]
    omega

theorem beValue_snoc (bs : List Byte) (b : Byte) : beValue (bs ++ [b]) = beValue bs * 256 + b.toNat := by
  simp [beValue, List.foldl_append]

theorem beValue_eq_leValue_reverse (b : List Byte) : beValue b = leValue b.reverse := by
  induction b using List.reverseRecOn with
  | nil => rfl
  | append_singleton b x ih => rw [beValue_snoc, List.reverse_append, ih]; simp [leValue]; ring

theorem intDecode_lt (o : ByteOrder) (b : List Byte) : intDecode o b < 256 ^ b.length := by
  cases o with
  | le => exact leValue_lt b
  | be => rw [intDecode, beValue_eq_leValue_reverse, ← List.length_reverse]; exact leValue_lt _

/-! ### Tables (R34 to R42, R191) -/

@[simp] theorem mapTable_length (dmap : Byte → Byte) : (mapTable dmap).length = 256 := by simp [mapTable]

theorem mapTable_getElem? (dmap : Byte → Byte) (b : Nat) (h : b < 256) :
    (mapTable dmap)[b]? = some (dmap (BitVec.ofNat 8 b)) := by simp [mapTable, h]

@[simp] theorem hexAlph_length : hexAlph.length = 16 := rfl
@[simp] theorem b32StdAlph_length : b32StdAlph.length = 32 := rfl
@[simp] theorem b32HexAlph_length : b32HexAlph.length = 32 := rfl
@[simp] theorem b64StdAlph_length : b64StdAlph.length = 64 := rfl
@[simp] theorem b64UrlAlph_length : b64UrlAlph.length = 64 := rfl

theorem fillMap_length (v : Nat) (a t : List Byte) : (fillMap v a t).length = t.length := by
  induction a generalizing v t with
  | nil => rfl
  | cons c cs ih => rw [fillMap, ih, List.length_set]

@[simp] theorem buildMap_length (a : List Byte) : (buildMap a).length = 256 := by
  rw [buildMap, fillMap_length, List.length_replicate]

end Sys2Proof.Machine
end

