-- ==== Sys2Proof/Laws/Exec.lean ====
section
/-! SUPPORT. Said once for all commands: the ways `exec` can end, each with the state it leaves. -/

namespace Sys2Proof.Machine

/-- The states a command can leave (R210 to R217). -/
inductive EndsAs (i : Instr) (s : State) : State → Prop
  /-- RANGE (R216). -/
  | range (h : rangeCondition s i) : EndsAs i s (s.raise .range 0)
  /-- INVALID_BYTE: the bytes below the decode bound are drawn (R214). -/
  | invalidByte (h : ¬ rangeCondition s i) (b : Byte) (hm : mayRaise i 1) (hb : decodeBound s.n i ≤ s.dstCapr.toNat) :
      EndsAs i s ((s.drawDst (decodeBound s.n i)).raise .invalidByte b)
  /-- ODD_LENGTH: the bytes below the decode bound are drawn (R214). -/
  | oddLength (h : ¬ rangeCondition s i) (hm : mayRaise i 2) (hb : decodeBound s.n i ≤ s.dstCapr.toNat) :
      EndsAs i s ((s.drawDst (decodeBound s.n i)).raise .oddLength 0)
  /-- INVALID_LENGTH: nothing has been written (R125, R145). -/
  | invalidLength (h : ¬ rangeCondition s i) (hm : mayRaise i 3) : EndsAs i s (s.raise .invalidLength 0)
  /-- ALPHABET: nothing has been written (R191). -/
  | alphabet (h : ¬ rangeCondition s i) (b : Byte) (hm : mayRaise i 6) : EndsAs i s (s.raise .alphabet b)
  /-- Success with destination bytes (R211). -/
  | wrote (h : ¬ rangeCondition s i) (out : List Byte) (len : Nat) (hl : out.length = len)
      (hc : len ≤ s.dstCapr.toNat ∨ len ≤ 256) : EndsAs i s ((s.writeDst out).finish len)
  /-- Success with a result in VAL (R104, R162). -/
  | value (h : ¬ rangeCondition s i) (v : DWord) (hv : writesVal i = true) : EndsAs i s ((s.writeVal v).finish 0)

variable {i : Instr} {s t : State}

theorem EndsAs.endEncode {n len : Nat} {out : List Byte} (hi : rangeCondition s i ↔ s.srcCapr.toNat < n ∨ s.dstCapr.toNat < len)
    (hl : out.length = len) : EndsAs i s (s.endEncode n len out) := by
  by_cases h : s.srcCapr.toNat < n ∨ s.dstCapr.toNat < len
  · rw [State.endEncode_range s out h]; exact .range (hi.2 h)
  · rw [State.endEncode_ok s out h]; exact .wrote (mt hi.1 h) out len hl (.inl (by omega))

theorem EndsAs.endDecode {n : Nat} {r : Except CodecError (List Byte)}
    (hi : rangeCondition s i ↔ s.srcCapr.toNat < n ∨ s.dstCapr.toNat < decodeBound s.n i)
    (hr : ∀ out, r = .ok out → out.length ≤ decodeBound s.n i)
    (h1 : ∀ b, r = .error (.invalidByte b) → mayRaise i 1) (h2 : r = .error .oddLength → mayRaise i 2)
    (h3 : r = .error .invalidLength → mayRaise i 3) : EndsAs i s (s.endDecode n (decodeBound s.n i) r) := by
  by_cases h : s.srcCapr.toNat < n ∨ s.dstCapr.toNat < decodeBound s.n i
  · rw [State.endDecode_range s r h]; exact .range (hi.2 h)
  · have hn := mt hi.1 h
    have hb : decodeBound s.n i ≤ s.dstCapr.toNat := by omega
    match r, hr, h1, h2, h3 with
    | .ok out, hr, _, _, _ =>
      rw [State.endDecode_ok s out h]; exact .wrote hn out _ rfl (.inl ((hr out rfl).trans hb))
    | .error (.invalidByte b), _, h1, _, _ =>
      rw [State.endDecode_invalidByte s b h]; exact .invalidByte hn b (h1 b rfl) hb
    | .error .oddLength, _, _, h2, _ => rw [State.endDecode_oddLength s h]; exact .oddLength hn (h2 rfl) hb
    | .error .invalidLength, _, _, _, h3 => rw [State.endDecode_invalidLength s h]; exact .invalidLength hn (h3 rfl)

theorem hexDecode_ne_invalidLength (x : List Byte) : hexDecode x ≠ .error .invalidLength := by
  induction x using hexDecode.induct with
  | case1 => simp [hexDecode]
  | case2 c hc => simp [hexDecode, hc]
  | case3 c hc => simp [hexDecode, hc]
  | case4 p q rest hp => simp [hexDecode, hp]
  | case5 p q rest hp hq => simp [hexDecode, hp, hq]
  | case6 p q rest hp hq e he ih => simpa [hexDecode, hp, hq, he] using ih
  | case7 p q rest hp hq b hb ih => simp [hexDecode, hp, hq, hb]

theorem accumulate_error_invalidByte {bits : Nat} {dmap : Byte → Byte} {v : Nat} {cs : List Byte} {e : CodecError}
    (h : accumulate bits dmap v cs = .error e) : ∃ b, e = .invalidByte b := by
  induction cs generalizing v with
  | nil => cases h
  | cons c cs ih =>
    rw [accumulate] at h
    split at h
    · cases h; exact ⟨_, rfl⟩
    · exact ih h

/-- A decode of groups fails with INVALID_BYTE only. -/
theorem decodeGroups_error_invalidByte {g : Geometry} {dmap : Byte → Byte} {gs : List (List Byte)} {e : CodecError}
    (h : decodeGroups g dmap gs = .error e) : ∃ b, e = .invalidByte b := by
  induction gs generalizing e with
  | nil => cases h
  | cons t gs ih =>
    cases gs with
    | nil =>
      simp only [decodeGroups, decodeFinal] at h
      split at h
      · next he => cases h; exact accumulate_error_invalidByte he
      · split at h
        · cases h; exact ⟨_, rfl⟩
        · split at h
          · cases h; exact ⟨_, rfl⟩
          · cases h
    | cons u gs =>
      rw [decodeGroups] at h
      split at h
      · next he =>
        cases h
        rw [decodeFull] at he
        split at he
        · next he' => cases he; exact accumulate_error_invalidByte he'
        · cases he
      · split at h
        · next he => cases h; exact ih he
        · cases h

theorem b32Decode_ne_oddLength (alph x : List Byte) : b32Decode alph x ≠ .error .oddLength := fun h => by
  rw [b32Decode] at h
  split at h
  · cases h
  · obtain ⟨b, hb⟩ := decodeGroups_error_invalidByte h; cases hb

theorem b64Decode_ne_oddLength (alph x : List Byte) : b64Decode alph x ≠ .error .oddLength := fun h => by
  rw [b64Decode] at h
  split at h
  · cases h
  · obtain ⟨b, hb⟩ := decodeGroups_error_invalidByte h; cases hb

theorem EndsAs.endLength {v : Nat} (h : ¬ rangeCondition s i) (hv : writesVal i = true) :
    EndsAs i s (s.endLength v) := .value h _ hv

theorem EndsAs.endCopy {out : List Byte} (h : ¬ rangeCondition s i) (hc : out.length ≤ 256) :
    EndsAs i s (s.endCopy out) := .wrote h out _ rfl (.inr hc)

theorem EndsAs.packInt {w : Nat} {o : ByteOrder} (hw : w ≤ 256) (h : ¬ rangeCondition s i) :
    EndsAs i s (s.packInt w o) := .endCopy h (by simpa using hw)

theorem EndsAs.unpackInt {w : Nat} {o : ByteOrder} (hi : rangeCondition s i ↔ s.n ≠ w) (hv : writesVal i = true) :
    EndsAs i s (s.unpackInt w o) := by
  unfold State.unpackInt
  split
  · next h => exact .range (hi.2 h)
  · next h => exact .value (mt hi.1 h) _ hv

theorem EndsAs.b32 {alph : List Byte} (hi : decodeBound s.n i = s.n / 8 * 5)
    (hr : rangeCondition s i ↔ s.srcCapr.toNat < s.n ∨ s.dstCapr.toNat < s.n / 8 * 5)
    (h1 : mayRaise i 1) (h3 : mayRaise i 3) :
    EndsAs i s (s.endDecode s.n (b32DecLen s.n) (b32Decode alph (s.srcBytes s.n))) := by
  rw [show b32DecLen s.n = decodeBound s.n i from hi.symm]
  refine .endDecode (by rw [hi]; exact hr) (fun out h => ?_) (fun _ _ => h1)
    (fun h => absurd h (b32Decode_ne_oddLength _ _)) (fun _ => h3)
  rw [hi]; simpa using b32Decode_length_le _ _ out h

theorem EndsAs.b64 {alph : List Byte} (hi : decodeBound s.n i = s.n / 4 * 3)
    (hr : rangeCondition s i ↔ s.srcCapr.toNat < s.n ∨ s.dstCapr.toNat < s.n / 4 * 3)
    (h1 : mayRaise i 1) (h3 : mayRaise i 3) :
    EndsAs i s (s.endDecode s.n (b64DecLen s.n) (b64Decode alph (s.srcBytes s.n))) := by
  rw [show b64DecLen s.n = decodeBound s.n i from hi.symm]
  refine .endDecode (by rw [hi]; exact hr) (fun out h => ?_) (fun _ _ => h1)
    (fun h => absurd h (b64Decode_ne_oddLength _ _)) (fun _ => h3)
  rw [hi]; simpa using b64Decode_length_le _ _ out h

theorem EndsAs.hex :
    EndsAs .hexDec s (s.endDecode s.n (s.n / 2) (hexDecode (s.srcBytes s.n))) := by
  refine EndsAs.endDecode (i := .hexDec) Iff.rfl (fun out h => ?_) (fun _ _ => .inl rfl) (fun _ => .inr (.inl rfl))
    (fun h => absurd h (hexDecode_ne_invalidLength _))
  have := hexDecode_length h
  simp only [State.n_srcBytes_length] at this
  show out.length ≤ s.n / 2
  omega

theorem EndsAs.build : ∃ t, execMapBuild s = .next t ∧ EndsAs .mapBuild s t := by
  refine ⟨_, rfl, ?_⟩
  split
  · next h => exact .range h
  · next h =>
    split
    · exact EndsAs.alphabet (i := .mapBuild) h _ (.inr rfl)
    · exact EndsAs.endCopy (i := .mapBuild) h (by simp)

/-- Every command completes, in one of the ways of `EndsAs` (R210). -/
theorem exec_ends (i : Instr) (s : State) : ∃ t, exec i s = .next t ∧ EndsAs i s t := by
  cases i
  case hexEnc => exact ⟨_, rfl, .endEncode Iff.rfl (by simp)⟩
  case hexDec => exact ⟨_, rfl, .hex⟩
  case b32EncStd => exact ⟨_, rfl, .endEncode Iff.rfl (by simp)⟩
  case b32EncHex => exact ⟨_, rfl, .endEncode Iff.rfl (by simp)⟩
  case b64EncStd => exact ⟨_, rfl, .endEncode Iff.rfl (by simp)⟩
  case b64EncUrl => exact ⟨_, rfl, .endEncode Iff.rfl (by simp)⟩
  case b32DecStd => exact ⟨_, rfl, .b32 rfl Iff.rfl (.inl rfl) (.inr (.inl rfl))⟩
  case b32DecHex => exact ⟨_, rfl, .b32 rfl Iff.rfl (.inl rfl) (.inr (.inl rfl))⟩
  case b64DecStd => exact ⟨_, rfl, .b64 rfl Iff.rfl (.inl rfl) (.inr (.inl rfl))⟩
  case b64DecUrl => exact ⟨_, rfl, .b64 rfl Iff.rfl (.inl rfl) (.inr (.inl rfl))⟩
  case intDec16Le => exact ⟨_, rfl, .unpackInt Iff.rfl rfl⟩
  case intDec16Be => exact ⟨_, rfl, .unpackInt Iff.rfl rfl⟩
  case intDec32Le => exact ⟨_, rfl, .unpackInt Iff.rfl rfl⟩
  case intDec32Be => exact ⟨_, rfl, .unpackInt Iff.rfl rfl⟩
  case intDec64Le => exact ⟨_, rfl, .unpackInt Iff.rfl rfl⟩
  case intDec64Be => exact ⟨_, rfl, .unpackInt Iff.rfl rfl⟩
  case mapBuild => exact EndsAs.build
  case hexEnclen => exact ⟨_, rfl, .endLength id rfl⟩
  case hexDeclen => exact ⟨_, rfl, .endLength id rfl⟩
  case b32Enclen => exact ⟨_, rfl, .endLength id rfl⟩
  case b32Declen => exact ⟨_, rfl, .endLength id rfl⟩
  case b64Enclen => exact ⟨_, rfl, .endLength id rfl⟩
  case b64Declen => exact ⟨_, rfl, .endLength id rfl⟩
  case intEnc16Le => exact ⟨_, rfl, EndsAs.packInt (by decide) id⟩
  case intEnc16Be => exact ⟨_, rfl, EndsAs.packInt (by decide) id⟩
  case intEnc32Le => exact ⟨_, rfl, EndsAs.packInt (by decide) id⟩
  case intEnc32Be => exact ⟨_, rfl, EndsAs.packInt (by decide) id⟩
  case intEnc64Le => exact ⟨_, rfl, EndsAs.packInt (by decide) id⟩
  case intEnc64Be => exact ⟨_, rfl, EndsAs.packInt (by decide) id⟩
  case mapHex => exact ⟨_, rfl, EndsAs.endCopy id (by simp)⟩
  case mapB32Std => exact ⟨_, rfl, EndsAs.endCopy id (by simp)⟩
  case mapB32Hex => exact ⟨_, rfl, EndsAs.endCopy id (by simp)⟩
  case mapB64Std => exact ⟨_, rfl, EndsAs.endCopy id (by simp)⟩
  case mapB64Url => exact ⟨_, rfl, EndsAs.endCopy id (by simp)⟩
  case alphHex => exact ⟨_, rfl, EndsAs.endCopy id (by simp)⟩
  case alphB32Std => exact ⟨_, rfl, EndsAs.endCopy id (by simp)⟩
  case alphB32Hex => exact ⟨_, rfl, EndsAs.endCopy id (by simp)⟩
  case alphB64Std => exact ⟨_, rfl, EndsAs.endCopy id (by simp)⟩
  case alphB64Url => exact ⟨_, rfl, EndsAs.endCopy id (by simp)⟩

theorem exec_next_ends (h : exec i s = .next t) : EndsAs i s t := by
  obtain ⟨t', h', e⟩ := exec_ends i s
  rw [h] at h'; cases h'; exact e

end Sys2Proof.Machine
end

