-- ==== Sys2Proof/Laws/Bus.lean ====
section
/-! SUPPORT. What a step does with the host's next event, and what stands where in the address map (R51 to R55). -/

namespace Sys2Proof.Machine

/-- The legal forms, written out (R52). -/
theorem accessLegal_iff (width : Width) (addr : Word) : accessLegal width addr = true ↔
    (addr.toNat < 0x1000 ∧ width = .b4 ∧ addr.toNat % 4 = 0) ∨ (0x1000 ≤ addr.toNat ∧ width = .b1) := by
  unfold accessLegal windowEnd
  by_cases h : addr.toNat < 0x1000
  · simp [h]
  · simp [h, Nat.le_of_not_lt h]

/-! ### The address map -/

/-- No register starts at an offset of 32 or more, or at a misaligned one (R51). -/
theorem regAt_none (a : Nat) (h : 32 ≤ a ∨ a % 4 ≠ 0) : regAt a = none := by
  unfold regAt; split <;> simp_all

/-- In the register window stand registers and reserved addresses (R51). -/
theorem State.placeAt_window (s : State) (a : Word) (h : a.toNat < 0x1000) :
    s.placeAt a = match regAt a.toNat with | some r => .reg r | none => .reserved := by
  unfold State.placeAt locate windowEnd
  exact (if_pos h).trans (by cases regAt a.toNat <;> rfl)

/-- Outside the register window, with allowed capacities (R51). -/
theorem State.placeAt_outside (s : State) (hc : CapsOk s) (a : Word) (h : 0x1000 ≤ a.toNat) :
    s.placeAt a =
      if 0x40000000 ≤ a.toNat ∧ a.toNat < 0x40000000 + s.srcCapr.toNat then .src (a.toNat - 0x40000000)
      else if 0x80000000 ≤ a.toNat ∧ a.toNat < 0x80000000 + s.dstCapr.toNat then .dst (a.toNat - 0x80000000)
      else .reserved := by
  obtain ⟨_, h1, _, h2⟩ := hc
  unfold State.placeAt locate windowEnd srcBase dstBase
  simp only []
  rw [if_neg (by omega)]
  by_cases c1 : 0x40000000 ≤ a.toNat ∧ a.toNat < 0x40000000 + s.srcCapr.toNat
  · rw [if_pos c1, if_pos (by omega)]
  · rw [if_neg c1, if_neg (by omega)]
    by_cases c2 : 0x80000000 ≤ a.toNat ∧ a.toNat < 0x80000000 + s.dstCapr.toNat
    · rw [if_pos c2, if_pos (by omega)]
    · rw [if_neg c2, if_neg (by omega)]

/-- The place of an address depends on the capacities alone. -/
theorem State.placeAt_congr {s t : State} (h1 : t.srcCapr = s.srcCapr) (h2 : t.dstCapr = s.dstCapr) (a : Word) :
    t.placeAt a = s.placeAt a := by unfold State.placeAt; rw [h1, h2]

/-- An index that stands in the map is below its capacity (R51). -/
theorem State.placeAt_src_lt {s : State} {a : Word} {i : Nat} (h : s.placeAt a = .src i) : i < s.srcCapr.toNat := by
  unfold State.placeAt locate at h
  simp only [] at h
  by_cases hw : a.toNat < windowEnd
  · rw [if_pos hw] at h
    cases hr : regAt a.toNat <;> simp [hr] at h
  · rw [if_neg hw] at h
    by_cases hs : srcBase ≤ a.toNat ∧ a.toNat < srcBase + 2 ^ 30 ∧ a.toNat - srcBase < s.srcCapr.toNat
    · rw [if_pos hs, Place.src.injEq] at h
      exact h ▸ hs.2.2
    · rw [if_neg hs] at h
      by_cases hd : dstBase ≤ a.toNat ∧ a.toNat < dstBase + 2 ^ 30 ∧ a.toNat - dstBase < s.dstCapr.toNat
      · rw [if_pos hd] at h; simp at h
      · rw [if_neg hd] at h; simp at h

/-! ### Steps -/

variable {s : State} {rest : List HostEvent}

theorem step_idle (h : s.pending = []) : step s = .next s := by
  unfold step nextEvent; rw [h]

theorem step_event {e : HostEvent} (h : s.pending = e :: rest) : step s = perform e { s with pending := rest } := by
  unfold step nextEvent; rw [h]

theorem step_read {width : Width} {a : Word} (h : s.pending = .read width a :: rest)
    (hl : accessLegal width a = true) :
    step s = .next { s with pending := rest, reply := s.busRead a } := by
  rw [step_event h]; simp only [perform, hl, if_true]; rfl

theorem step_write {width : Width} {a : Word} {d : DWord} (h : s.pending = .write width a d :: rest)
    (hl : accessLegal width a = true) :
    step s = busWrite a d { s with pending := rest, reply := .ack } := by
  rw [step_event h]; simp only [perform, hl, if_true]

theorem step_reset (h : s.pending = .reset :: rest) :
    step s = .next { s with pending := rest }.hostReset := step_event h

/-- An ill-formed event is a bus error, refused (R52). -/
theorem step_illFormed {e : HostEvent} (h : s.pending = e :: rest) (he : e.wellFormed = false) :
    step s = .refused .busError := by
  rw [step_event h]
  cases e with
  | read width a => simp only [HostEvent.wellFormed] at he; simp [perform, he]
  | write width a d => simp only [HostEvent.wellFormed] at he; simp [perform, he]
  | reset => cases he

/-- A write to CMD runs the word (R210). -/
theorem busWrite_cmd (s : State) (d : DWord) : busWrite 0x00000000#32 d s = runCommand (d.setWidth 32) s := rfl

/-- What a run of a command word can do: CMD takes the word, then an instruction ends as `EndsAs` says, or the word is
illegal (R210, R215). -/
theorem runCommand_ends (w : Word) (s : State) : ∃ t, runCommand w s = .next t ∧
    ((∃ i, decode w = .ok i ∧ EndsAs i { s with cmd := w } t) ∨
      ((∃ e, decode w = .error e) ∧ t = ({ s with cmd := w } : State).raise .illegalCmd 0)) := by
  unfold runCommand
  split
  · next i hi =>
    obtain ⟨t, h, e⟩ := exec_ends i { s with cmd := w }
    exact ⟨t, h, .inl ⟨i, hi, e⟩⟩
  · next e he => exact ⟨_, rfl, .inr ⟨⟨e, he⟩, rfl⟩⟩

/-- What a legal write can do (R54). -/
theorem busWrite_cases (a : Word) (d : DWord) (s : State) : ∃ t, busWrite a d s = .next t ∧
    ((s.placeAt a = .reg .cmd ∧ runCommand (d.setWidth 32) s = .next t) ∨
      (∃ r, s.placeAt a = .reg r ∧ r ≠ .cmd ∧ t = s.writeReg r (d.setWidth 32)) ∨
      (∃ i, s.placeAt a = .src i ∧ t = s.writeSrc i (d.setWidth 8)) ∨ t = s) := by
  unfold busWrite
  split
  · next h =>
    obtain ⟨t, ht, -⟩ := runCommand_ends (d.setWidth 32) s
    exact ⟨t, ht, .inl ⟨h, ht⟩⟩
  · next r hr h => exact ⟨_, rfl, .inr (.inl ⟨r, h, hr, rfl⟩)⟩
  · next i h => exact ⟨_, rfl, .inr (.inr (.inl ⟨i, h, rfl⟩))⟩
  · exact ⟨_, rfl, .inr (.inr (.inr rfl))⟩
  · exact ⟨_, rfl, .inr (.inr (.inr rfl))⟩

/-! ### What a step can do -/

/-- A command writes neither a capacity nor the host's accesses. -/
theorem EndsAs.keepsHost {i : Instr} {s t : State} (e : EndsAs i s t) :
    t.pending = s.pending ∧ t.srcCapr = s.srcCapr ∧ t.dstCapr = s.dstCapr := by cases e <;> exact ⟨rfl, rfl, rfl⟩

/-- A legal write, a command included, changes neither a capacity nor the host's accesses. -/
theorem busWrite_keepsHost {a : Word} {d : DWord} {s t : State} (h : busWrite a d s = .next t) :
    t.pending = s.pending ∧ t.srcCapr = s.srcCapr ∧ t.dstCapr = s.dstCapr := by
  obtain ⟨t', h', hh⟩ := busWrite_cases a d s
  rw [h] at h'; cases h'
  rcases hh with ⟨_, hr⟩ | ⟨r, _, _, rfl⟩ | ⟨i, _, rfl⟩ | rfl
  · obtain ⟨t', h', hh⟩ := runCommand_ends (d.setWidth 32) s
    rw [hr] at h'; cases h'
    rcases hh with ⟨i, _, e⟩ | ⟨_, rfl⟩
    · exact e.keepsHost
    · exact ⟨rfl, rfl, rfl⟩
  · cases r <;> exact ⟨rfl, rfl, rfl⟩
  · exact ⟨rfl, rfl, rfl⟩
  · exact ⟨rfl, rfl, rfl⟩

/-- Everything a step can do: nothing, when the host is idle; a refusal of an ill-formed access; the answer to a read;
a legal write; or a reset. -/
theorem step_cases (s : State) :
    (s.pending = [] ∧ step s = .next s) ∨
    ∃ e rest, s.pending = e :: rest ∧
      ((e.wellFormed = false ∧ step s = .refused .busError) ∨
       (e.wellFormed = true ∧ ∃ t, step s = .next t ∧
          ((∃ w a, e = .read w a ∧ t = { s with pending := rest, reply := s.busRead a }) ∨
           (∃ w a d, e = .write w a d ∧ accessLegal w a = true ∧
              busWrite a d { s with pending := rest, reply := .ack } = .next t) ∨
           (e = .reset ∧ t = ({ s with pending := rest } : State).hostReset)))) := by
  rcases h : s.pending with _ | ⟨e, rest⟩
  · exact .inl ⟨rfl, step_idle h⟩
  · refine .inr ⟨e, rest, rfl, ?_⟩
    by_cases hw : e.wellFormed = true
    · refine .inr ⟨hw, ?_⟩
      cases e with
      | read w a => exact ⟨_, step_read h hw, .inl ⟨w, a, rfl, rfl⟩⟩
      | write w a d =>
        obtain ⟨t, ht, -⟩ := busWrite_cases a d { s with pending := rest, reply := .ack }
        exact ⟨t, (step_write h hw).trans ht, .inr (.inl ⟨w, a, d, rfl, hw, ht⟩)⟩
      | reset => exact ⟨_, step_reset h, .inr (.inr ⟨rfl, rfl⟩)⟩
    · exact .inl ⟨by simpa using hw, step_illFormed h (by simpa using hw)⟩

end Sys2Proof.Machine
end

