-- ==== Sys2Proof/Laws/Decoding.lean ====
section
/-! SUPPORT. What a decode of groups gives: the first failing symbol, or the bytes of every group (41_base32.md R122,
42_base64.md R142). The input is a run of bytes `f a, f (a+1), …`, as SRC_BUF gives it. -/

namespace Sys2Proof.Machine

/-- A list that meets `p` on its first `k` elements and not on the next one. -/
theorem takeWhile_eq_take {α : Type} (p : α → Bool) (l : List α) (k : Nat) (h : ∀ c ∈ l.take k, p c = true)
    (hk : ∀ c, l[k]? = some c → p c = false) : l.takeWhile p = l.take k := by
  induction l generalizing k with
  | nil => simp
  | cons a l ih =>
    cases k with
    | zero => simp [hk a (by simp)]
    | succ k =>
      have ha : p a = true := h a (by simp)
      rw [List.takeWhile_cons_of_pos ha, List.take_succ_cons, ih k (fun c hc => h c (by simp [hc])) (fun c hc => hk c (by simpa using hc))]

/-- A sequence of `G + 1` whole groups is its first `G` groups and its final one. -/
theorem groupsOf_eq_append {α : Type} {k : Nat} (hk : 0 < k) (x : List α) (G : Nat) (h : x.length = k * (G + 1)) :
    groupsOf k x = (List.range G).map (fun i => (x.drop (k * i)).take k) ++ [x.drop (k * G)] := by
  refine List.ext_getElem? fun i => ?_
  rw [groupsOf_getElem? hk]
  have hm : k * (G + 1) = k * G + k := Nat.mul_succ k G
  rcases Nat.lt_trichotomy i G with hi | rfl | hi
  · rw [List.getElem?_append_left (by simpa using hi)]
    have : k * i + k ≤ k * G := by rw [← Nat.mul_succ]; exact Nat.mul_le_mul_left k hi
    rw [if_pos (by omega)]
    simp [hi]
  · rw [if_pos (by omega), List.getElem?_append_right (by simp)]
    simp only [List.length_map, List.length_range, Nat.sub_self, List.getElem?_cons_zero, Option.some.injEq]
    rw [List.take_of_length_le]
    rw [List.length_drop]; omega
  · have : k * (G + 1) ≤ k * i := Nat.mul_le_mul_left k hi
    rw [if_neg (by omega), eq_comm, List.getElem?_eq_none_iff]
    simp; omega

variable (g : Geometry) (dmap : Byte → Byte)

/-- A group of data symbols all in the alphabet decodes to its number's bytes. -/
theorem decodeFull_ok (t : List Byte) (h : ∀ c ∈ t, dmap c ≠ sentinel) :
    decodeFull g dmap t = .ok (beBytes g.bytes g.bytes (t.foldl (fun v c => v * 2 ^ g.bits + (dmap c).toNat) 0)) := by
  rw [decodeFull, accumulate_ok _ _ _ _ h]

theorem decodeFull_error (as : List Byte) (c : Byte) (bs : List Byte) (h : ∀ a ∈ as, dmap a ≠ sentinel)
    (hc : dmap c = sentinel) : decodeFull g dmap (as ++ c :: bs) = .error (.invalidByte c) := by
  rw [decodeFull, accumulate_error _ _ _ _ _ _ h hc]

/-- The data symbols of a final group. -/
def dataSymbols (t : List Byte) : List Byte := t.takeWhile (fun c => c ≠ padByte)

theorem decodeFinal_data_error (t as bs : List Byte) (c : Byte) (ht : dataSymbols t = as ++ c :: bs)
    (h : ∀ a ∈ as, dmap a ≠ sentinel) (hc : dmap c = sentinel) : decodeFinal g dmap t = .error (.invalidByte c) := by
  unfold decodeFinal
  simp only [show t.takeWhile (fun c => c ≠ padByte) = as ++ c :: bs from ht, accumulate_error _ _ _ _ _ _ h hc]

theorem decodeFinal_pad_error (t : List Byte) (h : ∀ c ∈ dataSymbols t, dmap c ≠ sentinel)
    (hk : (dataSymbols t).length < g.symbols) (hp : (dataSymbols t).length ∉ g.padded) :
    decodeFinal g dmap t = .error (.invalidByte padByte) := by
  unfold decodeFinal
  unfold dataSymbols at h hk hp
  simp only [accumulate_ok _ _ _ _ h]
  rw [if_pos ⟨hk, hp⟩]

theorem decodeFinal_rest_error (t as bs : List Byte) (c : Byte) (h : ∀ c ∈ dataSymbols t, dmap c ≠ sentinel)
    (hp : (dataSymbols t).length < g.symbols → (dataSymbols t).length ∈ g.padded)
    (ht : t.drop ((dataSymbols t).length + 1) = as ++ c :: bs)
    (ha : ∀ a ∈ as, a = padByte ∨ dmap a ≠ sentinel) (hc : c ≠ padByte ∧ dmap c = sentinel) :
    decodeFinal g dmap t = .error (.invalidByte c) := by
  unfold decodeFinal
  unfold dataSymbols at h hp ht
  simp only [accumulate_ok _ _ _ _ h]
  rw [if_neg (fun hh => hh.2 (hp hh.1)), ht]
  have : (as ++ c :: bs).find? (fun c => decide (c ≠ padByte ∧ dmap c = sentinel)) = some c := by
    rw [List.find?_append, List.find?_eq_none.2 (fun a hm => by rcases ha a hm with h | h <;> simp [h])]
    simp [hc.1, hc.2]
  rw [this]

theorem decodeFinal_ok (t : List Byte) (h : ∀ c ∈ dataSymbols t, dmap c ≠ sentinel)
    (hp : (dataSymbols t).length < g.symbols → (dataSymbols t).length ∈ g.padded)
    (ha : ∀ a ∈ t.drop ((dataSymbols t).length + 1), a = padByte ∨ dmap a ≠ sentinel) :
    decodeFinal g dmap t = .ok (beBytes g.bytes (g.bits * (dataSymbols t).length / 8)
      ((dataSymbols t).foldl (fun v c => v * 2 ^ g.bits + (dmap c).toNat) 0 *
        2 ^ (g.bits * (g.symbols - (dataSymbols t).length)))) := by
  unfold decodeFinal
  unfold dataSymbols at h hp ha ⊢
  simp only [accumulate_ok _ _ _ _ h]
  rw [if_neg (fun hh => hh.2 (hp hh.1))]
  have : (t.drop ((t.takeWhile (fun c => decide (c ≠ padByte))).length + 1)).find?
      (fun c => decide (c ≠ padByte ∧ dmap c = sentinel)) = none :=
    List.find?_eq_none.2 fun a hm => by rcases ha a hm with h | h <;> simp [h]
  rw [this]

/-! ### A run of bytes -/

/-- The bytes `f a, f (a + 1), …`, `m` of them. -/
def bytesOf (f : Nat → Byte) (a m : Nat) : List Byte := (List.range m).map fun j => f (a + j)

@[simp] theorem bytesOf_length (f : Nat → Byte) (a m : Nat) : (bytesOf f a m).length = m := by simp [bytesOf]

theorem mem_bytesOf {f : Nat → Byte} {a m : Nat} {c : Byte} : c ∈ bytesOf f a m ↔ ∃ j < m, f (a + j) = c := by
  simp [bytesOf]

theorem bytesOf_getElem? (f : Nat → Byte) (a m j : Nat) :
    (bytesOf f a m)[j]? = if j < m then some (f (a + j)) else none := by
  unfold bytesOf
  rw [List.getElem?_map]
  by_cases h : j < m <;> simp [h]

theorem bytesOf_drop (f : Nat → Byte) (a m d : Nat) : (bytesOf f a m).drop d = bytesOf f (a + d) (m - d) := by
  refine List.ext_getElem? fun j => ?_
  rw [List.getElem?_drop, bytesOf_getElem?, bytesOf_getElem?]
  by_cases h : d + j < m
  · rw [if_pos h, if_pos (by omega), Nat.add_assoc]
  · rw [if_neg h, if_neg (by omega)]

theorem bytesOf_take (f : Nat → Byte) (a m d : Nat) (h : d ≤ m) : (bytesOf f a m).take d = bytesOf f a d := by
  refine List.ext_getElem? fun j => ?_
  rw [List.getElem?_take, bytesOf_getElem?, bytesOf_getElem?]
  by_cases hj : j < d
  · rw [if_pos hj, if_pos hj, if_pos (by omega)]
  · rw [if_neg hj, if_neg hj]

theorem bytesOf_split (f : Nat → Byte) (a m j : Nat) (h : j < m) :
    bytesOf f a m = bytesOf f a j ++ f (a + j) :: bytesOf f (a + j + 1) (m - j - 1) := by
  have h1 := (List.take_append_drop j (bytesOf f a m)).symm
  rw [bytesOf_take f a m j (by omega), bytesOf_drop] at h1
  rw [h1]
  congr 1
  refine List.ext_getElem? fun i => ?_
  rw [bytesOf_getElem?]
  cases i with
  | zero => simp; omega
  | succ i =>
    rw [List.getElem?_cons_succ, bytesOf_getElem?, show a + j + (i + 1) = a + j + 1 + i by omega]
    by_cases hi : i < m - j - 1
    · rw [if_pos hi, if_pos (by omega)]
    · rw [if_neg hi, if_neg (by omega)]

/-- The data symbols of a run: those before its first `=`. -/
theorem dataSymbols_bytesOf (f : Nat → Byte) (a m k : Nat) (hk : k ≤ m) (h : ∀ j < k, f (a + j) ≠ padByte)
    (hp : k < m → f (a + k) = padByte) : dataSymbols (bytesOf f a m) = bytesOf f a k := by
  unfold dataSymbols
  rw [takeWhile_eq_take _ _ k, bytesOf_take f a m k hk]
  · intro c hc
    rw [bytesOf_take f a m k hk, mem_bytesOf] at hc
    obtain ⟨j, hj, rfl⟩ := hc
    simpa using h j hj
  · intro c hc
    rw [bytesOf_getElem?] at hc
    split at hc
    · next hm => cases hc; simpa using hp hm
    · cases hc

/-- The number of a run of data symbols, as a sum, left-justified in `w` symbols. -/
theorem foldl_bytesOf (f : Nat → Byte) (a k w : Nat) (hk : k ≤ w) :
    (bytesOf f a k).foldl (fun v c => v * 2 ^ g.bits + (dmap c).toNat) 0 * 2 ^ (g.bits * (w - k)) =
      ((List.range k).map fun j => (dmap (f (a + j))).toNat * 2 ^ (g.bits * (w - 1 - j))).sum := by
  have h := foldl_digits (fun c : Byte => (dmap c).toNat) (2 ^ g.bits) w (bytesOf f a k) (by simpa using hk)
  rw [bytesOf_length, ← pow_mul] at h
  rw [h]
  congr 1
  refine List.map_congr_left fun j hj => ?_
  rw [bytesOf_getElem?, if_pos (List.mem_range.1 hj), ← pow_mul]
  rfl

/-! ### A whole decode -/

/-- The symbol at `p` of an input of `G + 1` groups, the final one with `k` data symbols, fails (R122, R142). -/
def SymbolBad (f : Nat → Byte) (G k p : Nat) : Prop :=
  if p < g.symbols * G + k then dmap (f p) = sentinel
  else if p = g.symbols * G + k then k ∉ g.padded
  else f p ≠ padByte ∧ dmap (f p) = sentinel

variable {g dmap} {f : Nat → Byte} {G k : Nat}

/-- The data symbols before `q` are in the alphabet when no symbol before `q` fails. -/
theorem SymbolBad.data {q : Nat} (h : ∀ p < q, ¬ SymbolBad g dmap f G k p) {p : Nat} (hp : p < q)
    (hk : p < g.symbols * G + k) : dmap (f p) ≠ sentinel := fun e => h p hp (by rw [SymbolBad, if_pos hk]; exact e)

/-- The first failing symbol is the error of a decode. -/
theorem decodeGroups_firstBad (hs : 0 < g.symbols) (hk : k ≤ g.symbols)
    (hd : ∀ j < k, f (g.symbols * G + j) ≠ padByte) (hp : k < g.symbols → f (g.symbols * G + k) = padByte) (p : Nat)
    (hlt : p < g.symbols * (G + 1)) (hb : SymbolBad g dmap f G k p) (hq : ∀ q < p, ¬ SymbolBad g dmap f G k q) :
    decodeGroups g dmap (groupsOf g.symbols (bytesOf f 0 (g.symbols * (G + 1)))) = .error (.invalidByte (f p)) := by
  have hm : g.symbols * (G + 1) = g.symbols * G + g.symbols := Nat.mul_succ _ _
  rw [groupsOf_eq_append hs _ G (by simp)]
  have hgrp : ∀ i < G, ((bytesOf f 0 (g.symbols * (G + 1))).drop (g.symbols * i)).take g.symbols =
      bytesOf f (g.symbols * i) g.symbols := fun i hi => by
    have : g.symbols * i + g.symbols ≤ g.symbols * G := by rw [← Nat.mul_succ]; exact Nat.mul_le_mul_left _ hi
    rw [bytesOf_drop, bytesOf_take _ _ _ _ (by omega), Nat.zero_add]
  have hlast : (bytesOf f 0 (g.symbols * (G + 1))).drop (g.symbols * G) = bytesOf f (g.symbols * G) g.symbols := by
    rw [bytesOf_drop, Nat.zero_add]; congr 1; omega
  rw [hlast, List.map_congr_left (fun i hi => hgrp i (List.mem_range.1 hi))]
  have hfull : ∀ i, g.symbols * i + g.symbols ≤ p → g.symbols * i + g.symbols ≤ g.symbols * G →
      ∀ c ∈ bytesOf f (g.symbols * i) g.symbols, dmap c ≠ sentinel := fun i h1 h2 c hc => by
    obtain ⟨j, hj, rfl⟩ := mem_bytesOf.1 hc
    exact SymbolBad.data hq (by omega) (by omega)
  have hdiv := Nat.div_add_mod p g.symbols
  have hmod := Nat.mod_lt p hs
  by_cases hcase : p < g.symbols * G
  · -- the failing group is not the final one
    have hi : p / g.symbols < G := Nat.div_lt_of_lt_mul hcase
    have hle : g.symbols * (p / g.symbols) + g.symbols ≤ g.symbols * G := by
      rw [← Nat.mul_succ]; exact Nat.mul_le_mul_left _ hi
    have hsplit : (List.range G).map (fun i => bytesOf f (g.symbols * i) g.symbols) =
        (List.range (p / g.symbols)).map (fun i => bytesOf f (g.symbols * i) g.symbols) ++
          bytesOf f (g.symbols * (p / g.symbols)) g.symbols ::
          (List.range (G - p / g.symbols - 1)).map (fun i => bytesOf f (g.symbols * (p / g.symbols + 1 + i)) g.symbols) := by
      have e : G = p / g.symbols + (1 + (G - p / g.symbols - 1)) := by omega
      conv_lhs => rw [e]
      rw [List.range_add, List.map_append, List.range_add]
      simp [List.range_one, Nat.add_assoc]
    rw [hsplit, List.append_assoc, List.cons_append]
    refine decodeGroups_error g dmap _ _ _
      (fun t => beBytes g.bytes g.bytes (t.foldl (fun v c => v * 2 ^ g.bits + (dmap c).toNat) 0)) _
      (fun u hu => ?_) (fun h => absurd h (by simp)) (fun _ => ?_)
    · obtain ⟨i, hi', rfl⟩ := List.mem_map.1 hu
      have : g.symbols * i + g.symbols ≤ g.symbols * (p / g.symbols) := by
        rw [← Nat.mul_succ]; exact Nat.mul_le_mul_left _ (List.mem_range.1 hi')
      exact decodeFull_ok g dmap _ (hfull i (by omega) (by omega))
    · rw [bytesOf_split f _ g.symbols (p % g.symbols) hmod, hdiv]
      rw [SymbolBad, if_pos (by omega)] at hb
      refine decodeFull_error g dmap _ _ _ (fun c hc => ?_) hb
      obtain ⟨j, hj, rfl⟩ := mem_bytesOf.1 hc
      exact SymbolBad.data hq (by omega) (by omega)
  · -- the final group fails
    refine decodeGroups_error g dmap _ _ []
      (fun t => beBytes g.bytes g.bytes (t.foldl (fun v c => v * 2 ^ g.bits + (dmap c).toNat) 0)) _
      (fun u hu => ?_) (fun _ => ?_) (fun h => absurd rfl h)
    · obtain ⟨i, hi', rfl⟩ := List.mem_map.1 hu
      have : g.symbols * i + g.symbols ≤ g.symbols * G := by
        rw [← Nat.mul_succ]; exact Nat.mul_le_mul_left _ (List.mem_range.1 hi')
      exact decodeFull_ok g dmap _ (hfull i (by omega) this)
    · have hdat := dataSymbols_bytesOf f (g.symbols * G) g.symbols k hk hd hp
      rcases Nat.lt_trichotomy p (g.symbols * G + k) with h | h | h
      · -- a data symbol
        rw [SymbolBad, if_pos h] at hb
        have hs' := bytesOf_split f (g.symbols * G) k (p - g.symbols * G) (by omega)
        rw [show g.symbols * G + (p - g.symbols * G) = p by omega] at hs'
        refine decodeFinal_data_error g dmap _ _ _ _ (hdat.trans hs') (fun c hc => ?_) hb
        obtain ⟨j, hj, rfl⟩ := mem_bytesOf.1 hc
        exact SymbolBad.data hq (by omega) (by omega)
      · -- the first `=`
        rw [SymbolBad, if_neg (by omega), if_pos h] at hb
        have : f p = padByte := by rw [h]; exact hp (by omega)
        rw [this]
        refine decodeFinal_pad_error g dmap _ (fun c hc => ?_) (by rw [hdat, bytesOf_length]; omega)
          (by rw [hdat, bytesOf_length]; exact hb)
        rw [hdat] at hc
        obtain ⟨j, hj, rfl⟩ := mem_bytesOf.1 hc
        exact SymbolBad.data hq (by omega) (by omega)
      · -- a later symbol
        rw [SymbolBad, if_neg (by omega), if_neg (by omega)] at hb
        have hs' := bytesOf_split f (g.symbols * G + (k + 1)) (g.symbols - (k + 1)) (p - (g.symbols * G + (k + 1))) (by omega)
        rw [show g.symbols * G + (k + 1) + (p - (g.symbols * G + (k + 1))) = p by omega] at hs'
        refine decodeFinal_rest_error g dmap _ _ _ _ (fun c hc => ?_) (fun _ => ?_)
          (by rw [hdat, bytesOf_length, bytesOf_drop]; exact hs') (fun c hc => ?_) hb
        · rw [hdat] at hc
          obtain ⟨j, hj, rfl⟩ := mem_bytesOf.1 hc
          exact SymbolBad.data hq (by omega) (by omega)
        · rw [hdat, bytesOf_length]
          by_contra hc
          exact hq (g.symbols * G + k) (by omega) (by rw [SymbolBad, if_neg (by omega), if_pos rfl]; exact hc)
        · obtain ⟨j, hj, rfl⟩ := mem_bytesOf.1 hc
          have := hq (g.symbols * G + (k + 1) + j) (by omega)
          rw [SymbolBad, if_neg (by omega), if_neg (by omega)] at this
          by_cases he : f (g.symbols * G + (k + 1) + j) = padByte
          · exact .inl he
          · exact .inr fun hh => this ⟨he, hh⟩

/-- With no failing symbol, a decode gives the bytes of every group, in order. -/
theorem decodeGroups_allGood (hs : 0 < g.symbols) (hk : k ≤ g.symbols)
    (hd : ∀ j < k, f (g.symbols * G + j) ≠ padByte) (hp : k < g.symbols → f (g.symbols * G + k) = padByte)
    (hq : ∀ q < g.symbols * (G + 1), ¬ SymbolBad g dmap f G k q) :
    decodeGroups g dmap (groupsOf g.symbols (bytesOf f 0 (g.symbols * (G + 1)))) = .ok (
      ((List.range G).map fun i => bytesOf f (g.symbols * i) g.symbols).flatMap (fun t =>
          beBytes g.bytes g.bytes (t.foldl (fun v c => v * 2 ^ g.bits + (dmap c).toNat) 0)) ++
        beBytes g.bytes (g.bits * k / 8) ((bytesOf f (g.symbols * G) k).foldl (fun v c => v * 2 ^ g.bits + (dmap c).toNat) 0 *
          2 ^ (g.bits * (g.symbols - k)))) := by
  have hm : g.symbols * (G + 1) = g.symbols * G + g.symbols := Nat.mul_succ _ _
  rw [groupsOf_eq_append hs _ G (by simp)]
  have hgrp : ∀ i < G, ((bytesOf f 0 (g.symbols * (G + 1))).drop (g.symbols * i)).take g.symbols =
      bytesOf f (g.symbols * i) g.symbols := fun i hi => by
    have : g.symbols * i + g.symbols ≤ g.symbols * G := by rw [← Nat.mul_succ]; exact Nat.mul_le_mul_left _ hi
    rw [bytesOf_drop, bytesOf_take _ _ _ _ (by omega), Nat.zero_add]
  have hlast : (bytesOf f 0 (g.symbols * (G + 1))).drop (g.symbols * G) = bytesOf f (g.symbols * G) g.symbols := by
    rw [bytesOf_drop, Nat.zero_add]; congr 1; omega
  rw [hlast, List.map_congr_left (fun i hi => hgrp i (List.mem_range.1 hi))]
  have hdat := dataSymbols_bytesOf f (g.symbols * G) g.symbols k hk hd hp
  refine decodeGroups_ok g dmap _ _ _ _ (fun u hu => ?_) ?_
  · obtain ⟨i, hi', rfl⟩ := List.mem_map.1 hu
    have : g.symbols * i + g.symbols ≤ g.symbols * G := by
      rw [← Nat.mul_succ]; exact Nat.mul_le_mul_left _ (List.mem_range.1 hi')
    refine decodeFull_ok g dmap _ fun c hc => ?_
    obtain ⟨j, hj, rfl⟩ := mem_bytesOf.1 hc
    exact SymbolBad.data hq (by omega) (by omega)
  · have h := decodeFinal_ok g dmap (bytesOf f (g.symbols * G) g.symbols) (fun c hc => ?_) (fun hlt => ?_) (fun c hc => ?_)
    · rw [h, hdat, bytesOf_length]
    · rw [hdat] at hc
      obtain ⟨j, hj, rfl⟩ := mem_bytesOf.1 hc
      exact SymbolBad.data hq (by omega) (by omega)
    · rw [hdat, bytesOf_length] at hlt ⊢
      by_contra hc
      exact hq (g.symbols * G + k) (by omega) (by rw [SymbolBad, if_neg (by omega), if_pos rfl]; exact hc)
    · rw [hdat, bytesOf_length, bytesOf_drop] at hc
      obtain ⟨j, hj, rfl⟩ := mem_bytesOf.1 hc
      have := hq (g.symbols * G + (k + 1) + j) (by omega)
      rw [SymbolBad, if_neg (by omega), if_neg (by omega)] at this
      by_cases he : f (g.symbols * G + (k + 1) + j) = padByte
      · exact .inl he
      · exact .inr fun hh => this ⟨he, hh⟩

theorem beBytes_getElem? (w m v i : Nat) :
    (beBytes w m v)[i]? = if i < m then some (BitVec.ofNat 8 (v / 2 ^ (8 * (w - 1 - i)))) else none := by
  unfold beBytes
  rw [List.getElem?_map]
  by_cases h : i < m <;> simp [h]

/-- Byte `b` of a decode's output: the byte at its place in its group's number. -/
theorem decoded_getElem? (f : Nat → Byte) (hb : 0 < g.bytes) (hm : g.bits * k / 8 ≤ g.bytes) (b : Nat)
    (h : b < G * g.bytes + g.bits * k / 8) (num : List Byte → Nat) (last : Nat) :
    ((((List.range G).map fun i => bytesOf f (g.symbols * i) g.symbols).flatMap fun t =>
        beBytes g.bytes g.bytes (num t)) ++ beBytes g.bytes (g.bits * k / 8) last)[b]? =
      some (BitVec.ofNat 8 ((if b / g.bytes = G then last else num (bytesOf f (g.symbols * (b / g.bytes)) g.symbols)) /
        2 ^ (8 * (g.bytes - 1 - b % g.bytes)))) := by
  have hlen : (((List.range G).map fun i => bytesOf f (g.symbols * i) g.symbols).flatMap fun t =>
      beBytes g.bytes g.bytes (num t)).length = G * g.bytes := by
    rw [flatMap_length_const _ g.bytes _ fun _ _ => beBytes_length _ _ _]; simp
  have hdiv := Nat.div_add_mod b g.bytes
  have hmod := Nat.mod_lt b hb
  by_cases hc : b < G * g.bytes
  · have hi : b / g.bytes < G := by rw [Nat.div_lt_iff_lt_mul hb]; exact hc
    rw [List.getElem?_append_left (by rw [hlen]; exact hc), if_neg (by omega)]
    have hf := flatMap_getElem?_const (fun t => beBytes g.bytes g.bytes (num t)) g.bytes
      ((List.range G).map fun i => bytesOf f (g.symbols * i) g.symbols) (fun _ _ => beBytes_length _ _ _)
      (b / g.bytes) (b % g.bytes) hmod
    rw [hdiv] at hf
    rw [hf]
    rw [List.getElem?_map, List.getElem?_range hi]
    show (beBytes g.bytes g.bytes _)[b % g.bytes]? = _
    rw [beBytes_getElem?, if_pos hmod]
  · have hi : b / g.bytes = G := by
      apply Nat.div_eq_of_lt_le
      · omega
      · rw [Nat.succ_mul]; omega
    rw [List.getElem?_append_right (by rw [hlen]; omega), hlen, if_pos hi, beBytes_getElem?, if_pos (by omega)]
    have : b - G * g.bytes = b % g.bytes := by rw [hi, Nat.mul_comm] at hdiv; omega
    rw [this]

/-! ### The bytes a command reads and writes -/

theorem State.srcBytes_eq_bytesOf (s : State) (n : Nat) : s.srcBytes n = bytesOf s.srcByte 0 n := by
  unfold State.srcBytes bytesOf; simp

/-- A byte of the output of a command that succeeded. -/
theorem State.dstByte_wrote (s : State) (out : List Byte) (len b : Nat) (c : Byte) (h : out[b]? = some c) :
    ((s.writeDst out).finish len).dstByte b = c := by
  show (s.writeDst out).dstByte b = c
  rw [State.dstByte_writeDst, h]; rfl

/-- The number of a group of bytes, left-justified in `w` bytes, as a sum. -/
theorem beValue_leftJustified (bs : List Byte) (w : Nat) (h : bs.length ≤ w) :
    beValue bs * 2 ^ (8 * (w - bs.length)) =
      ((List.range bs.length).map fun i => (bs[i]?.elim 0 BitVec.toNat) * 2 ^ (8 * (w - 1 - i))).sum := by
  have h1 := foldl_digits (fun b : Byte => b.toNat) 256 w bs h
  have h2 : ∀ k, 256 ^ k = 2 ^ (8 * k) := fun k => by rw [pow_mul]; norm_num
  simp only [h2] at h1
  exact h1

end Sys2Proof.Machine
end

