-- ==== Sys2Proof/Laws/PerInstr.lean ====
section
/-! SUPPORT. Per instruction: its command word stands in the table of 30_encoding.md R73. -/

namespace Sys2Proof.Laws.Encoding

/-- The word of an instruction has RSV = 0 (R71), is well formed and decodes to that instruction (R73, R74). -/
def Statement (i : Instr) : Prop :=
  fieldRsv (encode i) = 0 ∧ wordWellFormed (encode i) = true ∧ decode (encode i) = .ok i ∧ i.WellFormed

theorem hexEnc : Statement .hexEnc := ⟨by decide, by decide, by decide, trivial⟩
theorem hexDec : Statement .hexDec := ⟨by decide, by decide, by decide, trivial⟩
theorem hexEnclen : Statement .hexEnclen := ⟨by decide, by decide, by decide, trivial⟩
theorem hexDeclen : Statement .hexDeclen := ⟨by decide, by decide, by decide, trivial⟩
theorem b32EncStd : Statement .b32EncStd := ⟨by decide, by decide, by decide, trivial⟩
theorem b32EncHex : Statement .b32EncHex := ⟨by decide, by decide, by decide, trivial⟩
theorem b32DecStd : Statement .b32DecStd := ⟨by decide, by decide, by decide, trivial⟩
theorem b32DecHex : Statement .b32DecHex := ⟨by decide, by decide, by decide, trivial⟩
theorem b32Enclen : Statement .b32Enclen := ⟨by decide, by decide, by decide, trivial⟩
theorem b32Declen : Statement .b32Declen := ⟨by decide, by decide, by decide, trivial⟩
theorem b64EncStd : Statement .b64EncStd := ⟨by decide, by decide, by decide, trivial⟩
theorem b64EncUrl : Statement .b64EncUrl := ⟨by decide, by decide, by decide, trivial⟩
theorem b64DecStd : Statement .b64DecStd := ⟨by decide, by decide, by decide, trivial⟩
theorem b64DecUrl : Statement .b64DecUrl := ⟨by decide, by decide, by decide, trivial⟩
theorem b64Enclen : Statement .b64Enclen := ⟨by decide, by decide, by decide, trivial⟩
theorem b64Declen : Statement .b64Declen := ⟨by decide, by decide, by decide, trivial⟩
theorem intEnc16Le : Statement .intEnc16Le := ⟨by decide, by decide, by decide, trivial⟩
theorem intEnc16Be : Statement .intEnc16Be := ⟨by decide, by decide, by decide, trivial⟩
theorem intDec16Le : Statement .intDec16Le := ⟨by decide, by decide, by decide, trivial⟩
theorem intDec16Be : Statement .intDec16Be := ⟨by decide, by decide, by decide, trivial⟩
theorem intEnc32Le : Statement .intEnc32Le := ⟨by decide, by decide, by decide, trivial⟩
theorem intEnc32Be : Statement .intEnc32Be := ⟨by decide, by decide, by decide, trivial⟩
theorem intDec32Le : Statement .intDec32Le := ⟨by decide, by decide, by decide, trivial⟩
theorem intDec32Be : Statement .intDec32Be := ⟨by decide, by decide, by decide, trivial⟩
theorem intEnc64Le : Statement .intEnc64Le := ⟨by decide, by decide, by decide, trivial⟩
theorem intEnc64Be : Statement .intEnc64Be := ⟨by decide, by decide, by decide, trivial⟩
theorem intDec64Le : Statement .intDec64Le := ⟨by decide, by decide, by decide, trivial⟩
theorem intDec64Be : Statement .intDec64Be := ⟨by decide, by decide, by decide, trivial⟩
theorem mapBuild : Statement .mapBuild := ⟨by decide, by decide, by decide, trivial⟩
theorem mapHex : Statement .mapHex := ⟨by decide, by decide, by decide, trivial⟩
theorem mapB32Std : Statement .mapB32Std := ⟨by decide, by decide, by decide, trivial⟩
theorem mapB32Hex : Statement .mapB32Hex := ⟨by decide, by decide, by decide, trivial⟩
theorem mapB64Std : Statement .mapB64Std := ⟨by decide, by decide, by decide, trivial⟩
theorem mapB64Url : Statement .mapB64Url := ⟨by decide, by decide, by decide, trivial⟩
theorem alphHex : Statement .alphHex := ⟨by decide, by decide, by decide, trivial⟩
theorem alphB32Std : Statement .alphB32Std := ⟨by decide, by decide, by decide, trivial⟩
theorem alphB32Hex : Statement .alphB32Hex := ⟨by decide, by decide, by decide, trivial⟩
theorem alphB64Std : Statement .alphB64Std := ⟨by decide, by decide, by decide, trivial⟩
theorem alphB64Url : Statement .alphB64Url := ⟨by decide, by decide, by decide, trivial⟩

end Sys2Proof.Laws.Encoding
end

