-- ==== Sys2Proof/Laws/TwoRuns.lean ====
section
/-! SUPPORT. Two runs of a command from states that agree on what commands read (20_memory.md R60): said once for all
commands, whatever relation is wanted of the states they leave. -/

namespace Sys2Proof.Machine

/-- Two states from which every end of a command leaves states related by `Q`, and that agree on what commands read:
SRC_LEN, the source bytes below it, VAL and the capacities (R60). -/
structure EndRel (Q : State → State → Prop) (s u : State) : Prop where
  caps : u.srcCapr = s.srcCapr ∧ u.dstCapr = s.dstCapr
  raise : ∀ c b, Q (s.raise c b) (u.raise c b)
  draw : ∀ d c b, Q ((s.drawDst d).raise c b) ((u.drawDst d).raise c b)
  wrote : ∀ out len, out.length = len → len < 2^32 → Q ((s.writeDst out).finish len) ((u.writeDst out).finish len)
  val : ∀ v, Q ((s.writeVal v).finish 0) ((u.writeVal v).finish 0)
  n : u.n = s.n
  bytes : ∀ k, k ≤ s.n → u.srcBytes k = s.srcBytes k
  v : u.val = s.val

variable {Q : State → State → Prop} {s u : State}
theorem EndRel.endEncode (h : EndRel Q s u) (len : Nat) (out : List Byte) (hl : out.length = len) :
    Q (s.endEncode s.n len out) (u.endEncode s.n len out) := by
  have c1 := h.caps.1; have c2 := h.caps.2
  have := s.dstCapr.isLt
  by_cases hr : s.srcCapr.toNat < s.n ∨ s.dstCapr.toNat < len
  · rw [State.endEncode_range s _ hr, State.endEncode_range u _ (by rw [c1, c2]; exact hr)]; exact h.raise _ _
  · rw [State.endEncode_ok s _ hr, State.endEncode_ok u _ (by rw [c1, c2]; exact hr)]; exact h.wrote _ _ hl (by omega)

theorem EndRel.endDecode (h : EndRel Q s u) (len : Nat) (r : Except CodecError (List Byte))
    (hl : ∀ out, r = .ok out → out.length ≤ len) :
    Q (s.endDecode s.n len r) (u.endDecode s.n len r) := by
  have c1 := h.caps.1; have c2 := h.caps.2
  have := s.dstCapr.isLt
  by_cases hr : s.srcCapr.toNat < s.n ∨ s.dstCapr.toNat < len
  · rw [State.endDecode_range s _ hr, State.endDecode_range u _ (by rw [c1, c2]; exact hr)]; exact h.raise _ _
  · have hr' : ¬ (u.srcCapr.toNat < s.n ∨ u.dstCapr.toNat < len) := by rw [c1, c2]; exact hr
    rcases r with (b | _ | _) | out
    · rw [State.endDecode_invalidByte s _ hr, State.endDecode_invalidByte u _ hr']; exact h.draw _ _ _
    · rw [State.endDecode_oddLength s hr, State.endDecode_oddLength u hr']; exact h.draw _ _ _
    · rw [State.endDecode_invalidLength s hr, State.endDecode_invalidLength u hr']; exact h.raise _ _
    · rw [State.endDecode_ok s _ hr, State.endDecode_ok u _ hr']; exact h.wrote _ _ rfl (by have := hl _ rfl; omega)

theorem EndRel.endCopy (h : EndRel Q s u) (out : List Byte) (hl : out.length ≤ 256) :
    Q (s.endCopy out) (u.endCopy out) := h.wrote _ _ rfl (by omega)

theorem EndRel.unpackInt (h : EndRel Q s u) (w : Nat) (o : ByteOrder) : Q (s.unpackInt w o) (u.unpackInt w o) := by
  unfold State.unpackInt
  rw [h.n]
  split
  · exact h.raise _ _
  · next hw => rw [h.bytes w (by omega)]; exact h.val _

theorem EndRel.packInt (h : EndRel Q s u) (w : Nat) (o : ByteOrder) (hw : w ≤ 256) : Q (s.packInt w o) (u.packInt w o) := by
  unfold State.packInt; rw [h.v]; exact h.endCopy _ (by simpa using hw)

/-- Every command, run from both states, completes with related states. -/
theorem EndRel.exec (h : EndRel Q s u) (i : Instr) : ∃ t t', Machine.exec i s = .next t ∧ Machine.exec i u = .next t' ∧ Q t t' := by
  have hb := h.bytes s.n (Nat.le_refl _)
  have hn := h.n
  cases i <;> refine ⟨_, _, rfl, rfl, ?_⟩
  case hexEnc => rw [hn, hb]; exact h.endEncode _ _ (by simp)
  case hexDec => rw [hn, hb]; exact h.endDecode _ _ (fun out e => by have := hexDecode_length e; simp at this; omega)
  case hexEnclen => rw [hn]; exact h.val _
  case hexDeclen => rw [hn]; exact h.val _
  case b32EncStd => rw [hn, hb]; exact h.endEncode _ _ (by simp)
  case b32EncHex => rw [hn, hb]; exact h.endEncode _ _ (by simp)
  case b32DecStd => rw [hn, hb]; exact h.endDecode _ _ (fun out e => by have := b32Decode_length_le _ _ _ e; simpa [b32DecLen] using this)
  case b32DecHex => rw [hn, hb]; exact h.endDecode _ _ (fun out e => by have := b32Decode_length_le _ _ _ e; simpa [b32DecLen] using this)
  case b32Enclen => rw [hn]; exact h.val _
  case b32Declen => rw [hn]; exact h.val _
  case b64EncStd => rw [hn, hb]; exact h.endEncode _ _ (by simp)
  case b64EncUrl => rw [hn, hb]; exact h.endEncode _ _ (by simp)
  case b64DecStd => rw [hn, hb]; exact h.endDecode _ _ (fun out e => by have := b64Decode_length_le _ _ _ e; simpa [b64DecLen] using this)
  case b64DecUrl => rw [hn, hb]; exact h.endDecode _ _ (fun out e => by have := b64Decode_length_le _ _ _ e; simpa [b64DecLen] using this)
  case b64Enclen => rw [hn]; exact h.val _
  case b64Declen => rw [hn]; exact h.val _
  case intEnc16Le => exact h.packInt _ _ (by decide)
  case intEnc16Be => exact h.packInt _ _ (by decide)
  case intDec16Le => exact h.unpackInt _ _
  case intDec16Be => exact h.unpackInt _ _
  case intEnc32Le => exact h.packInt _ _ (by decide)
  case intEnc32Be => exact h.packInt _ _ (by decide)
  case intDec32Le => exact h.unpackInt _ _
  case intDec32Be => exact h.unpackInt _ _
  case intEnc64Le => exact h.packInt _ _ (by decide)
  case intEnc64Be => exact h.packInt _ _ (by decide)
  case intDec64Le => exact h.unpackInt _ _
  case intDec64Be => exact h.unpackInt _ _
  case mapBuild =>
    rw [hn, hb]
    split
    · exact h.raise _ _
    · split
      · exact h.raise _ _
      · exact h.endCopy _ (by simp)
  case mapHex => exact h.endCopy _ (by simp)
  case mapB32Std => exact h.endCopy _ (by simp)
  case mapB32Hex => exact h.endCopy _ (by simp)
  case mapB64Std => exact h.endCopy _ (by simp)
  case mapB64Url => exact h.endCopy _ (by simp)
  case alphHex => exact h.endCopy _ (by simp)
  case alphB32Std => exact h.endCopy _ (by simp)
  case alphB32Hex => exact h.endCopy _ (by simp)
  case alphB64Std => exact h.endCopy _ (by simp)
  case alphB64Url => exact h.endCopy _ (by simp)

end Sys2Proof.Machine
end

