-- ==== Sys2Proof/Tests/Slice0.lean ====
section
/-! SUPPORT. Tests of the model. Expected results come from spec/: the table of 30_encoding.md R73 and the vectors of
95_test_vectors.md, whose names stand in the comments. A theorem named witness_<X> shows a concrete case that meets the
hypotheses of the statement <X>. -/

namespace Sys2Proof.Tests

open Sys2Proof.Machine Sys2Proof.Claims

/-! ### Small states -/

/-- The ASCII codes of characters. -/
def text (cs : List Char) : List Byte := cs.map ascii

/-- The state of section 2.1 of the vectors: capacities 4096, the input bytes in SRC_BUF and SRC_LEN. -/
def withSrc (bytes : List Byte) : State :=
  { State.reset with
    srcLen := BitVec.ofNat 32 bytes.length
    srcCapr := 0x1000#32
    dstCapr := 0x1000#32
    src := Memory.cellsFrom 0 bytes }

/-- As `withSrc []` with a given SRC_LEN. -/
def withLen (n : Word) : State := { withSrc [] with srcLen := n }

/-- As `withSrc []` with a given VAL. -/
def withVal (hi lo : Word) : State := { withSrc [] with valHi := hi, valLo := lo }

/-- The smallest capacities, 64 and 256, and a given SRC_LEN. -/
def smallest (n : Word) : State := { withLen n with srcCapr := 64#32, dstCapr := 256#32 }

/-- A host that performs the given accesses. -/
def hostDoes (es : List HostEvent) : State := { withSrc [] with pending := es }

/-- STATUS, `DST[0 .. DST_LEN)` and VAL after a command. -/
def result (i : Instr) (s : State) : Option (Word × List Byte × Nat) :=
  match exec i s with
  | .next t => some (t.status, (List.range t.dstLen.toNat).map t.dstByte, valNat t)
  | _ => none

/-- STATUS and VAL after a command. -/
def statusVal (i : Instr) (s : State) : Option (Word × Nat) :=
  match exec i s with
  | .next t => some (t.status, valNat t)
  | _ => none

/-- STATUS, DST_LEN and one byte of DST after a command. -/
def byteAt (i : Instr) (s : State) (b : Nat) : Option (Word × Word × Byte) :=
  match exec i s with
  | .next t => some (t.status, t.dstLen, t.dstByte b)
  | _ => none

/-- The answer to the host's next access. -/
def answer (s : State) : Option Reply :=
  match step s with
  | .next t => some t.reply
  | _ => none

/-- The registers after a step. -/
def registersAfter (s : State) : Option (List Word) :=
  match step s with
  | .next t => some [t.cmd, t.status, t.srcLen, t.dstLen, t.valLo, t.valHi, t.srcCapr, t.dstCapr]
  | _ => none

def okStatus : Word := 0x80000000#32

/-! ### Well-formedness refuses -/

/-- R75: reserved bits, a reserved unit, an unassigned function, an absent variant. -/
theorem test_word_illFormed :
    [0x00000210#32, 0x00000000#32, 0x00000060#32, 0x00000014#32, 0x00000110#32].map wordWellFormed =
      [false, false, false, false, false] := by decide

/-- R7: each bound of each capacity. -/
theorem test_caps_illFormed : capsWellFormed 63 256 = false ∧ capsWellFormed 64 255 = false ∧
    capsWellFormed (2 ^ 30 + 1) 256 = false ∧ capsWellFormed 64 (2 ^ 30 + 1) = false ∧
    capsWellFormed 64 256 = true ∧ capsWellFormed (2 ^ 30) (2 ^ 30) = true := by decide +kernel

/-- R52: the forms that are bus errors. -/
theorem test_access_illFormed : ∀ e ∈ [HostEvent.read .b1 0x000#32, .read .b2 0x004#32, .read .b4 0x002#32,
    .read .b8 0x000#32, .write .b1 0xFFF#32 0, .read .b4 0x1000#32, .write .b2 0x40000000#32 0,
    .write .b4 0x40000000#32 0, .read .b8 0x80000000#32], e.wellFormed = false := by decide

theorem test_access_wellFormed : ∀ e ∈ [HostEvent.read .b4 0x000#32, .read .b4 0xFFC#32, .write .b1 0x1000#32 0,
    .write .b1 0xFFFFFFFF#32 0, .reset], e.wellFormed = true := by decide

/-! ### Decoding, the fields written out: RSV 23 bits, VAR, UNIT, FN (R71, R73) -/

theorem test_decode_hex :
    decode (0b00000000000000000000000#23 ++ 0b0#1 ++ 0b0001#4 ++ 0b0000#4) = .ok .hexEnc ∧
    decode (0b00000000000000000000000#23 ++ 0b0#1 ++ 0b0001#4 ++ 0b0001#4) = .ok .hexDec ∧
    decode (0b00000000000000000000000#23 ++ 0b0#1 ++ 0b0001#4 ++ 0b0010#4) = .ok .hexEnclen ∧
    decode (0b00000000000000000000000#23 ++ 0b0#1 ++ 0b0001#4 ++ 0b0011#4) = .ok .hexDeclen := by decide

theorem test_decode_b32 :
    decode (0b00000000000000000000000#23 ++ 0b0#1 ++ 0b0010#4 ++ 0b0000#4) = .ok .b32EncStd ∧
    decode (0b00000000000000000000000#23 ++ 0b1#1 ++ 0b0010#4 ++ 0b0000#4) = .ok .b32EncHex ∧
    decode (0b00000000000000000000000#23 ++ 0b0#1 ++ 0b0010#4 ++ 0b0001#4) = .ok .b32DecStd ∧
    decode (0b00000000000000000000000#23 ++ 0b1#1 ++ 0b0010#4 ++ 0b0001#4) = .ok .b32DecHex ∧
    decode (0b00000000000000000000000#23 ++ 0b0#1 ++ 0b0010#4 ++ 0b0010#4) = .ok .b32Enclen ∧
    decode (0b00000000000000000000000#23 ++ 0b0#1 ++ 0b0010#4 ++ 0b0011#4) = .ok .b32Declen := by decide

theorem test_decode_b64 :
    decode (0b00000000000000000000000#23 ++ 0b0#1 ++ 0b0011#4 ++ 0b0000#4) = .ok .b64EncStd ∧
    decode (0b00000000000000000000000#23 ++ 0b1#1 ++ 0b0011#4 ++ 0b0000#4) = .ok .b64EncUrl ∧
    decode (0b00000000000000000000000#23 ++ 0b0#1 ++ 0b0011#4 ++ 0b0001#4) = .ok .b64DecStd ∧
    decode (0b00000000000000000000000#23 ++ 0b1#1 ++ 0b0011#4 ++ 0b0001#4) = .ok .b64DecUrl ∧
    decode (0b00000000000000000000000#23 ++ 0b0#1 ++ 0b0011#4 ++ 0b0010#4) = .ok .b64Enclen ∧
    decode (0b00000000000000000000000#23 ++ 0b0#1 ++ 0b0011#4 ++ 0b0011#4) = .ok .b64Declen := by decide

theorem test_decode_int :
    decode (0b00000000000000000000000#23 ++ 0b0#1 ++ 0b0100#4 ++ 0b0000#4) = .ok .intEnc16Le ∧
    decode (0b00000000000000000000000#23 ++ 0b1#1 ++ 0b0100#4 ++ 0b0000#4) = .ok .intEnc16Be ∧
    decode (0b00000000000000000000000#23 ++ 0b0#1 ++ 0b0100#4 ++ 0b0001#4) = .ok .intDec16Le ∧
    decode (0b00000000000000000000000#23 ++ 0b1#1 ++ 0b0100#4 ++ 0b0001#4) = .ok .intDec16Be ∧
    decode (0b00000000000000000000000#23 ++ 0b0#1 ++ 0b0100#4 ++ 0b0010#4) = .ok .intEnc32Le ∧
    decode (0b00000000000000000000000#23 ++ 0b1#1 ++ 0b0100#4 ++ 0b0010#4) = .ok .intEnc32Be ∧
    decode (0b00000000000000000000000#23 ++ 0b0#1 ++ 0b0100#4 ++ 0b0011#4) = .ok .intDec32Le ∧
    decode (0b00000000000000000000000#23 ++ 0b1#1 ++ 0b0100#4 ++ 0b0011#4) = .ok .intDec32Be ∧
    decode (0b00000000000000000000000#23 ++ 0b0#1 ++ 0b0100#4 ++ 0b0100#4) = .ok .intEnc64Le ∧
    decode (0b00000000000000000000000#23 ++ 0b1#1 ++ 0b0100#4 ++ 0b0100#4) = .ok .intEnc64Be ∧
    decode (0b00000000000000000000000#23 ++ 0b0#1 ++ 0b0100#4 ++ 0b0101#4) = .ok .intDec64Le ∧
    decode (0b00000000000000000000000#23 ++ 0b1#1 ++ 0b0100#4 ++ 0b0101#4) = .ok .intDec64Be := by decide

theorem test_decode_map :
    decode (0b00000000000000000000000#23 ++ 0b0#1 ++ 0b0101#4 ++ 0b0000#4) = .ok .mapBuild ∧
    decode (0b00000000000000000000000#23 ++ 0b0#1 ++ 0b0101#4 ++ 0b0001#4) = .ok .mapHex ∧
    decode (0b00000000000000000000000#23 ++ 0b0#1 ++ 0b0101#4 ++ 0b0010#4) = .ok .mapB32Std ∧
    decode (0b00000000000000000000000#23 ++ 0b1#1 ++ 0b0101#4 ++ 0b0010#4) = .ok .mapB32Hex ∧
    decode (0b00000000000000000000000#23 ++ 0b0#1 ++ 0b0101#4 ++ 0b0011#4) = .ok .mapB64Std ∧
    decode (0b00000000000000000000000#23 ++ 0b1#1 ++ 0b0101#4 ++ 0b0011#4) = .ok .mapB64Url ∧
    decode (0b00000000000000000000000#23 ++ 0b0#1 ++ 0b0101#4 ++ 0b0100#4) = .ok .alphHex ∧
    decode (0b00000000000000000000000#23 ++ 0b0#1 ++ 0b0101#4 ++ 0b0101#4) = .ok .alphB32Std ∧
    decode (0b00000000000000000000000#23 ++ 0b1#1 ++ 0b0101#4 ++ 0b0101#4) = .ok .alphB32Hex ∧
    decode (0b00000000000000000000000#23 ++ 0b0#1 ++ 0b0101#4 ++ 0b0110#4) = .ok .alphB64Std ∧
    decode (0b00000000000000000000000#23 ++ 0b1#1 ++ 0b0101#4 ++ 0b0110#4) = .ok .alphB64Url := by decide

/-- V-ILL-1 to V-ILL-18. -/
theorem test_decode_illegal : [0x00000000#32, 0x00000014#32, 0x00000110#32, 0x00000112#32, 0x00000122#32,
    0x00000024#32, 0x00000046#32, 0x00000057#32, 0x00000150#32, 0x00000060#32, 0x00000200#32, 0x80000010#32,
    0xFFFFFFFF#32, 0x0000000F#32, 0x00000151#32, 0x00000154#32, 0x000000F0#32, 0x00000123#32].all
    (fun w => (decode w).toOption.isNone) = true := by decide

/-- A word of the table reaches `step` as the next host write. -/
theorem test_withFetchWord : decodeTableWord 32 0x12 = some .hexEnclen ∧
    registersAfter ((withLen 3#32).withFetchWord 32 0x12) =
      some [0x12#32, okStatus, 3#32, 0#32, 6#32, 0#32, 0x1000#32, 0x1000#32] := by decide

/-! ### The host's accesses -/

/-- P5: the reset value of STATUS, then the illegal word 0, which CMD keeps; 10_state.md section 2 gives the offsets. -/
theorem test_illegal_step : registersAfter (hostDoes [cmdWrite 0x10000020#64]) =
    some [0x10000020#32, 0x80000004#32, 0#32, 0#32, 0#32, 0#32, 0x1000#32, 0x1000#32] := by decide

/-- 10_state.md section 2 and R53: the eight registers by offset, and a reserved word. -/
theorem test_register_reads :
    [0x00#32, 0x04#32, 0x08#32, 0x0C#32, 0x10#32, 0x14#32, 0x18#32, 0x1C#32, 0x20#32, 0xFFC#32].map
      (fun a => answer { hostDoes [.read .b4 a] with
        cmd := 1#32, status := 2#32, srcLen := 3#32, dstLen := 4#32, valLo := 5#32, valHi := 6#32 }) =
    [1#32, 2#32, 3#32, 4#32, 5#32, 6#32, 0x1000#32, 0x1000#32, 0#32, 0#32].map (fun w => some (Reply.word w)) := by
  decide

/-- R51, R53: the windows' edges, with one byte listed at each. -/
theorem test_buffer_reads :
    [0x1000#32, 0x3FFFFFFF#32, 0x40000000#32, 0x40000FFF#32, 0x40001000#32, 0x7FFFFFFF#32, 0x80000000#32, 0x80000FFF#32,
      0x80001000#32, 0xC0000000#32, 0xFFFFFFFF#32].map
      (fun a => answer { hostDoes [.read .b1 a] with
        src := [(0, 1#8), (0xFFF, 2#8), (0x1000, 9#8)], dst := [(0, 3#8), (0xFFF, 4#8), (0x1000, 9#8)] }) =
    [0#8, 0#8, 1#8, 2#8, 0#8, 0#8, 3#8, 4#8, 0#8, 0#8, 0#8].map (fun b => some (Reply.byte b)) := by decide

/-- R54: a write of SRC_LEN, of a read-only register, and of VAL_HI. -/
theorem test_register_writes :
    registersAfter (hostDoes [.write .b4 0x008#32 7#64]) =
      some [0#32, 0#32, 7#32, 0#32, 0#32, 0#32, 0x1000#32, 0x1000#32] ∧
    registersAfter (hostDoes [.write .b4 0x018#32 7#64]) =
      some [0#32, 0#32, 0#32, 0#32, 0#32, 0#32, 0x1000#32, 0x1000#32] ∧
    registersAfter (hostDoes [.write .b4 0x014#32 7#64]) =
      some [0#32, 0#32, 0#32, 0#32, 0#32, 7#32, 0x1000#32, 0x1000#32] := by decide

/-! ### The commands -/

/-- V-HEX-3: nibbles 0 and F, lower case. -/
theorem test_hexEnc : result .hexEnc (withSrc [0x00#8, 0x0F#8, 0xF0#8, 0xFF#8]) =
    some (okStatus, text ['0', '0', '0', 'f', 'f', '0', 'f', 'f'], 0) := by decide

/-- V-HEX-6 and V-HEX-8: mixed case; odd length after a valid last symbol. -/
theorem test_hexDec : result .hexDec (withSrc (text ['a', 'B'])) = some (okStatus, [0xAB#8], 0) ∧
    result .hexDec (withSrc (text ['a', 'b', 'c'])) = some (0x80000002#32, [], 0) := by decide

/-- V-HEX-9, V-HEX-10, V-HEX-11, V-HEX-23: which symbol is reported. -/
theorem test_hexDec_invalid : result .hexDec (withSrc (text ['a', 'b', 'z'])) = some (0x80007A01#32, [], 0) ∧
    result .hexDec (withSrc (text ['z', 'b', 'c'])) = some (0x80007A01#32, [], 0) ∧
    result .hexDec (withSrc (text ['g', 'z'])) = some (0x80006701#32, [], 0) ∧
    result .hexDec (withSrc (text ['4', '1', 'z', 'z'])) = some (0x80007A01#32, [], 0) := by decide

/-- V-HEX-18: the largest operand, no wrap. -/
theorem test_hexEnclen : result .hexEnclen (withLen 0xFFFFFFFF#32) = some (okStatus, [], 0x1FFFFFFFE) := by decide

/-- V-HEX-19: floor. -/
theorem test_hexDeclen : result .hexDeclen (withLen 7#32) = some (okStatus, [], 3) := by decide

/-- V-B32-2 and V-B32-7. -/
theorem test_b32EncStd :
    result .b32EncStd (withSrc (text ['f'])) = some (okStatus, text ['M', 'Y', '=', '=', '=', '=', '=', '='], 0) ∧
    result .b32EncStd (withSrc (text ['f', 'o', 'o', 'b', 'a', 'r'])) = some (okStatus,
      text ['M', 'Z', 'X', 'W', '6', 'Y', 'T', 'B', 'O', 'I', '=', '=', '=', '=', '=', '='], 0) := by decide

/-- V-B32-11. -/
theorem test_b32EncHex : result .b32EncHex (withSrc (text ['f', 'o', 'o', 'b'])) =
    some (okStatus, text ['C', 'P', 'N', 'M', 'U', 'O', 'G', '='], 0) := by decide

/-- V-B32-15, V-B32-18, V-B32-19, V-B32-24: a success, discarded bits, a symbol after `=`, k = 7. -/
theorem test_b32DecStd :
    result .b32DecStd (withSrc (text ['M', 'Z', 'X', 'W', '6', 'Y', 'T', 'B', 'O', 'I', '=', '=', '=', '=', '=', '='])) =
      some (okStatus, text ['f', 'o', 'o', 'b', 'a', 'r'], 0) ∧
    result .b32DecStd (withSrc (text ['M', 'Z', '=', '=', '=', '=', '=', '='])) = some (okStatus, text ['f'], 0) ∧
    result .b32DecStd (withSrc (text ['M', 'Y', '=', 'A', '=', '=', '=', '='])) = some (okStatus, text ['f'], 0) ∧
    result .b32DecStd (withSrc (text ['M', 'Z', 'X', 'W', '6', 'Y', 'Q', '='])) =
      some (okStatus, text ['f', 'o', 'o', 'b'], 0) := by decide

/-- V-B32-20, V-B32-21, V-B32-23, V-B32-27, V-B32-29: the error of each kind. -/
theorem test_b32DecStd_errors :
    result .b32DecStd (withSrc (text ['M', 'Y', '=', '*', '=', '=', '=', '='])) = some (0x80002A01#32, [], 0) ∧
    result .b32DecStd (withSrc (text ['M', '=', '=', '=', '=', '=', '=', '='])) = some (0x80003D01#32, [], 0) ∧
    result .b32DecStd (withSrc (text ['M', 'Z', 'X', 'W', '6', 'Y', '=', '='])) = some (0x80003D01#32, [], 0) ∧
    result .b32DecStd (withSrc (text ['M', 'Y', '=', '=', '=', '=', '=', '=', 'M', 'Y', '=', '=', '=', '=', '=', '='])) =
      some (0x80003D01#32, [], 0) ∧
    result .b32DecStd (withSrc (text ['M', 'Y', '=', '=', '=', '=', '='])) = some (0x80000003#32, [], 0) := by decide

/-- V-B32-32 and V-B32-34. -/
theorem test_b32DecHex :
    result .b32DecHex (withSrc (text ['C', 'P', 'N', 'M', 'U', 'O', 'J', '1', 'E', '8', '=', '=', '=', '=', '=', '='])) =
      some (okStatus, text ['f', 'o', 'o', 'b', 'a', 'r'], 0) ∧
    result .b32DecHex (withSrc (text ['W', '0', '=', '=', '=', '=', '=', '='])) = some (0x80005701#32, [], 0) := by decide

/-- V-B32-38. -/
theorem test_b32Enclen : result .b32Enclen (withLen 0xFFFFFFFF#32) = some (okStatus, [], 0x199999998) := by decide

/-- V-B32-39. -/
theorem test_b32Declen : result .b32Declen (withLen 0x10#32) = some (okStatus, [], 10) := by decide

/-- V-B64-2 and V-B64-8. -/
theorem test_b64EncStd : result .b64EncStd (withSrc (text ['f'])) = some (okStatus, text ['Z', 'g', '=', '='], 0) ∧
    result .b64EncStd (withSrc [0xFB#8, 0xFF#8, 0xBF#8]) = some (okStatus, text ['+', '/', '+', '/'], 0) := by decide

/-- V-B64-9. -/
theorem test_b64EncUrl : result .b64EncUrl (withSrc [0xFB#8, 0xFF#8, 0xBF#8]) =
    some (okStatus, text ['-', '_', '-', '_'], 0) := by decide

/-- V-B64-12, V-B64-14, V-B64-22, V-B64-23. -/
theorem test_b64DecStd :
    result .b64DecStd (withSrc (text ['Z', 'm', '9', 'v', 'Y', 'm', 'F', 'y'])) =
      some (okStatus, text ['f', 'o', 'o', 'b', 'a', 'r'], 0) ∧
    result .b64DecStd (withSrc (text ['Z', 'm', '8', '='])) = some (okStatus, text ['f', 'o'], 0) ∧
    result .b64DecStd (withSrc (text ['Z', 'h', '=', '='])) = some (okStatus, text ['f'], 0) ∧
    result .b64DecStd (withSrc (text ['Z', 'g', '=', 'A'])) = some (okStatus, text ['f'], 0) := by decide

/-- V-B64-15, V-B64-17, V-B64-19, V-B64-20, V-B64-21, V-B64-24. -/
theorem test_b64DecStd_errors : ([[], ['Z', 'm', '9', 'v', '*'], ['Z', 'g', '=', '=', 'Z', 'g', '=', '='],
      ['=', 'A', 'A', 'A'], ['Z', '=', '=', '='], ['Z', 'g', '=', '*']].map fun cs => result .b64DecStd (withSrc (text cs))) =
    [0x80000003#32, 0x80000003#32, 0x80003D01#32, 0x80003D01#32, 0x80003D01#32, 0x80002A01#32].map
      (fun w => some (w, [], 0)) := by decide

/-- V-B64-27 and V-B64-28. -/
theorem test_b64DecUrl : result .b64DecUrl (withSrc (text ['-', '_', '-', '_'])) =
      some (okStatus, [0xFB#8, 0xFF#8, 0xBF#8], 0) ∧
    result .b64DecUrl (withSrc (text ['+', '/', '+', '/'])) = some (0x80002B01#32, [], 0) := by decide

/-- V-B64-32. -/
theorem test_b64Enclen : result .b64Enclen (withLen 0xFFFFFFFF#32) = some (okStatus, [], 0x155555554) := by decide

/-- V-B64-35. -/
theorem test_b64Declen : result .b64Declen (withLen 0xFFFFFFFF#32) = some (okStatus, [], 0xBFFFFFFD) := by decide

/-- Log entry 12: the numbers the base64 rules write as `r + 1` and `k - 1` (R141, R142) are the shared formulas. -/
theorem test_b64_geometry : ([1, 2, 3].map fun r => ceilDiv (8 * r) 6) = [2, 3, 4] ∧
    ([2, 3, 4].map fun k => 6 * k / 8) = [1, 2, 3] := by decide

/-- V-INT-3. -/
theorem test_intEnc16Le : result .intEnc16Le (withVal 0xFFFFFFFF#32 0x0000ABCD#32) =
    some (okStatus, [0xCD#8, 0xAB#8], 0xFFFFFFFF0000ABCD) := by decide

/-- V-INT-2. -/
theorem test_intEnc16Be : result .intEnc16Be (withVal 0#32 0x0000ABCD#32) =
    some (okStatus, [0xAB#8, 0xCD#8], 0xABCD) := by decide

/-- V-INT-10: the upper bits of VAL are cleared. -/
theorem test_intDec16Le : result .intDec16Le { withSrc [0xCD#8, 0xAB#8] with valLo := 0x11111111#32, valHi := 0x11111111#32 } =
    some (okStatus, [], 0xABCD) := by decide

/-- V-INT-11 and V-INT-18. -/
theorem test_intDec16Be : result .intDec16Be (withSrc [0xCD#8, 0xAB#8]) = some (okStatus, [], 0xCDAB) ∧
    result .intDec16Be (withVal 0#32 0x42#32) = some (0x80000005#32, [], 0x42) := by decide

/-- V-INT-4. -/
theorem test_intEnc32Le : result .intEnc32Le (withVal 0#32 0x12345678#32) =
    some (okStatus, [0x78#8, 0x56#8, 0x34#8, 0x12#8], 0x12345678) := by decide

/-- V-INT-6. -/
theorem test_intEnc32Be : result .intEnc32Be (withVal 0xDEADBEEF#32 0x12345678#32) =
    some (okStatus, [0x12#8, 0x34#8, 0x56#8, 0x78#8], 0xDEADBEEF12345678) := by decide

/-- V-INT-12 and V-INT-17. -/
theorem test_intDec32Le : result .intDec32Le { withSrc [0x78#8, 0x56#8, 0x34#8, 0x12#8] with valHi := 0xFFFFFFFF#32 } =
      some (okStatus, [], 0x12345678) ∧
    result .intDec32Le { withSrc [0x78#8, 0x56#8, 0x34#8, 0x12#8, 0#8] with valLo := 0x42#32 } =
      some (0x80000005#32, [], 0x42) := by decide

/-- V-INT-13. -/
theorem test_intDec32Be : result .intDec32Be (withSrc [0x12#8, 0x34#8, 0x56#8, 0x78#8]) =
    some (okStatus, [], 0x12345678) := by decide

/-- V-INT-7. -/
theorem test_intEnc64Le : result .intEnc64Le (withVal 0x01020304#32 0x05060708#32) =
    some (okStatus, [8#8, 7#8, 6#8, 5#8, 4#8, 3#8, 2#8, 1#8], 0x0102030405060708) := by decide

/-- V-INT-8. -/
theorem test_intEnc64Be : result .intEnc64Be (withVal 0x01020304#32 0x05060708#32) =
    some (okStatus, [1#8, 2#8, 3#8, 4#8, 5#8, 6#8, 7#8, 8#8], 0x0102030405060708) := by decide

/-- V-INT-14. -/
theorem test_intDec64Le : result .intDec64Le (withSrc [8#8, 7#8, 6#8, 5#8, 4#8, 3#8, 2#8, 1#8]) =
    some (okStatus, [], 0x0102030405060708) := by decide

/-- V-INT-15 and V-INT-19. -/
theorem test_intDec64Be : result .intDec64Be (withSrc [8#8, 7#8, 6#8, 5#8, 4#8, 3#8, 2#8, 1#8]) =
      some (okStatus, [], 0x0807060504030201) ∧
    result .intDec64Be (withSrc [0x80#8, 0#8, 0#8, 0#8, 0#8, 0#8, 0#8, 1#8]) =
      some (okStatus, [], 0x8000000000000001) := by decide

/-- V-MAP-9: an alphabet outside ASCII, 0xFF included. -/
theorem test_mapBuild : ([0xF0, 0xFE, 0xFF, 0x00, 0xEF].map
      (byteAt .mapBuild (withSrc [0xF0#8, 0xF1#8, 0xF2#8, 0xF3#8, 0xF4#8, 0xF5#8, 0xF6#8, 0xF7#8, 0xF8#8, 0xF9#8, 0xFA#8,
        0xFB#8, 0xFC#8, 0xFD#8, 0xFE#8, 0xFF#8]))) =
    [0x00#8, 0x0E#8, 0x0F#8, 0xFF#8, 0xFF#8].map (fun b => some (okStatus, 0x100#32, b)) := by decide +kernel

/-- V-MAP-5, V-MAP-7 and V-MAP-8. -/
theorem test_mapBuild_errors :
    result .mapBuild (withSrc (text ['0', '1', '2', '3', '4', '5', '6', '7', '8', '9', 'a', 'b', 'c', 'd', 'e', 'e'])) =
      some (0x80006506#32, [], 0) ∧
    result .mapBuild (withSrc (text ['=', '=', '2', '3', '4', '5', '6', '7', '8', '9', 'a', 'b', 'c', 'd', 'e', 'e'])) =
      some (0x80003D06#32, [], 0) ∧
    result .mapBuild (withSrc []) = some (0x80000005#32, [], 0) := by decide

/-- V-MAP-10: '0', '9', 'a', 'F', 'G'. -/
theorem test_mapHex : ([0x30, 0x39, 0x61, 0x46, 0x47].map (byteAt .mapHex (withSrc []))) =
    [0#8, 9#8, 10#8, 15#8, 0xFF#8].map (fun b => some (okStatus, 0x100#32, b)) := by decide +kernel

/-- V-MAP-11: 'A', 'Z', '2', '7', 'a'. -/
theorem test_mapB32Std : ([0x41, 0x5A, 0x32, 0x37, 0x61].map (byteAt .mapB32Std (withSrc []))) =
    [0#8, 25#8, 26#8, 31#8, 0xFF#8].map (fun b => some (okStatus, 0x100#32, b)) := by decide +kernel

/-- V-MAP-12: '0', '9', 'A', 'V', 'W'. -/
theorem test_mapB32Hex : ([0x30, 0x39, 0x41, 0x56, 0x57].map (byteAt .mapB32Hex (withSrc []))) =
    [0#8, 9#8, 10#8, 31#8, 0xFF#8].map (fun b => some (okStatus, 0x100#32, b)) := by decide +kernel

/-- V-MAP-13: 'A', 'z', '0', '+', '/', '-'. -/
theorem test_mapB64Std : ([0x41, 0x7A, 0x30, 0x2B, 0x2F, 0x2D].map (byteAt .mapB64Std (withSrc []))) =
    [0#8, 51#8, 52#8, 62#8, 63#8, 0xFF#8].map (fun b => some (okStatus, 0x100#32, b)) := by decide +kernel

/-- V-MAP-14: '-', '_', '+', '/'. -/
theorem test_mapB64Url : ([0x2D, 0x5F, 0x2B, 0x2F].map (byteAt .mapB64Url (withSrc []))) =
    [62#8, 63#8, 0xFF#8, 0xFF#8].map (fun b => some (okStatus, 0x100#32, b)) := by decide +kernel

/-- V-MAP-15. -/
theorem test_alphHex : result .alphHex (withSrc []) = some (okStatus,
    text ['0', '1', '2', '3', '4', '5', '6', '7', '8', '9', 'a', 'b', 'c', 'd', 'e', 'f'], 0) := by decide

/-- V-MAP-16: values 0, 25, 26, 31. -/
theorem test_alphB32Std : ([0, 25, 26, 31].map (byteAt .alphB32Std (withSrc []))) =
    (text ['A', 'Z', '2', '7']).map (fun b => some (okStatus, 32#32, b)) := by decide

/-- V-MAP-17: values 0, 9, 10, 31. -/
theorem test_alphB32Hex : ([0, 9, 10, 31].map (byteAt .alphB32Hex (withSrc []))) =
    (text ['0', '9', 'A', 'V']).map (fun b => some (okStatus, 32#32, b)) := by decide

/-- V-MAP-18: values 25, 26, 52, 62, 63. -/
theorem test_alphB64Std : ([25, 26, 52, 62, 63].map (byteAt .alphB64Std (withSrc []))) =
    (text ['Z', 'a', '0', '+', '/']).map (fun b => some (okStatus, 64#32, b)) := by decide

/-- V-MAP-19: values 62, 63. -/
theorem test_alphB64Url : ([62, 63].map (byteAt .alphB64Url (withSrc []))) =
    (text ['-', '_']).map (fun b => some (okStatus, 64#32, b)) := by decide

/-- V-RNG-2, V-RNG-7, V-RNG-9, V-RNG-10, V-RNG-11: RANGE first, but never for a length command. -/
theorem test_range : statusVal .hexEnc { withLen 129#32 with srcCapr := 256#32, dstCapr := 256#32 } = some (0x80000005#32, 0) ∧
    statusVal .hexEnc (smallest 65#32) = some (0x80000005#32, 0) ∧
    statusVal .b64DecStd (smallest 65#32) = some (0x80000005#32, 0) ∧
    statusVal .b32DecStd (smallest 65#32) = some (0x80000005#32, 0) ∧
    statusVal .hexEnclen (smallest 65#32) = some (okStatus, 0x82) := by decide

/-! ### Witnesses: cases that meet the hypotheses of the statements, one for each clause -/

/-- `DecodeIffEncode`: both sides hold of a word of the table. -/
theorem witness_DecodeIffEncode : decode 0x00000156#32 = .ok .alphB64Url ∧ 0x00000156#32 = encode .alphB64Url := by decide

/-- `IllegalWords`: a word for each reason, at the first and last value that has it. -/
theorem witness_IllegalWords : [0x00000210#32, 0x80000010#32, 0x00000000#32, 0x00000060#32, 0x000000F0#32,
    0x00000014#32, 0x0000001F#32, 0x00000024#32, 0x00000034#32, 0x00000046#32, 0x00000057#32, 0x00000110#32, 0x00000122#32,
    0x00000133#32, 0x00000150#32, 0x00000151#32, 0x00000154#32].all (fun w => (decode w).toOption.isNone) = true := by decide

theorem witness_IllegalWords_error : ∃ e, decode 0x00000210#32 = .error e := ⟨.reservedBits, by decide⟩

theorem witness_StepRunsDecodedCommand : (hostDoes [cmdWrite 0x10#64]).pending = cmdWrite 0x10#64 :: [] ∧
    decode ((0x10#64 : DWord).setWidth 32) = .ok .hexEnc := by decide

theorem witness_IllegalCommandStep : (hostDoes [cmdWrite 0x60#64, .reset]).pending = cmdWrite 0x60#64 :: [.reset] ∧
    decode ((0x60#64 : DWord).setWidth 32) = .error .reservedUnit := by decide

/-- `BusErrorsRefused`: the legal forms and the refused ones at the edges of the register window. -/
theorem witness_BusErrorsRefused : accessLegal .b4 0xFFC#32 = true ∧ accessLegal .b1 0x1000#32 = true ∧
    (hostDoes [.read .b1 0x000#32]).pending = [.read .b1 0x000#32] ∧ accessLegal .b1 0x000#32 = false ∧
    accessLegal .b1 0xFFF#32 = false ∧ (hostDoes [.write .b4 0x1000#32 0]).pending = [.write .b4 0x1000#32 0] ∧
    accessLegal .b4 0x1000#32 = false ∧ accessLegal .b4 0xFFFFFFFC#32 = false := by decide

theorem witness_RegisterWindowReads : [0x000#32, 0x004#32, 0x008#32, 0x00C#32, 0x010#32, 0x014#32, 0x018#32,
    0x01C#32, 0x020#32, 0xFFC#32].all (fun a => decide
      ((hostDoes [.read .b4 a]).pending = [.read .b4 a] ∧ a.toNat ≤ 0xFFF ∧ a.toNat % 4 = 0)) = true := by decide

theorem witness_capsOk (es : List HostEvent) : CapsOk (hostDoes es) := by
  show 64 ≤ 4096 ∧ 4096 ≤ 2 ^ 30 ∧ 256 ≤ 4096 ∧ 4096 ≤ 2 ^ 30
  norm_num

theorem witness_capsOk_smallest : CapsOk (smallest 0#32) := by
  show 64 ≤ 64 ∧ 64 ≤ 2 ^ 30 ∧ 256 ≤ 256 ∧ 256 ≤ 2 ^ 30
  norm_num

/-- `BufferReads`, with `witness_capsOk`: the edges of each window and of each capacity. -/
theorem witness_BufferReads : [0x1000#32, 0x3FFFFFFF#32, 0x40000000#32, 0x40000FFF#32, 0x40001000#32, 0x7FFFFFFF#32,
    0x80000000#32, 0x80000FFF#32, 0x80001000#32, 0xFFFFFFFF#32].all (fun a => decide
      ((hostDoes [.read .b1 a]).pending = [.read .b1 a] ∧ 0x1000 ≤ a.toNat)) = true := by decide +kernel

/-- `ReservedAddresses`, with `witness_capsOk`: the edges of each reserved range, for a read and for a write. -/
theorem witness_ReservedAddresses : [(Width.b4, 0x020#32), (.b4, 0xFFC#32), (.b1, 0x1000#32), (.b1, 0x3FFFFFFF#32),
    (.b1, 0x40001000#32), (.b1, 0x7FFFFFFF#32), (.b1, 0x80001000#32), (.b1, 0xFFFFFFFF#32)].all (fun c => decide
    (accessLegal c.1 c.2 = true ∧
    (0x20 ≤ c.2.toNat ∧ c.2.toNat < 0x40000000 ∨
      0x40000000 + (hostDoes []).srcCapr.toNat ≤ c.2.toNat ∧ c.2.toNat < 0x80000000 ∨
      0x80000000 + (hostDoes []).dstCapr.toNat ≤ c.2.toNat) ∧
    (hostDoes [.read c.1 c.2]).pending = [.read c.1 c.2] ∧
    (hostDoes [.write c.1 c.2 1]).pending = [.write c.1 c.2 1])) = true := by decide +kernel

/-- A state that meets the invariant, after a command with an error byte. -/
def afterError : State := { withSrc (text ['z']) with status := 0x80007A01#32 }

theorem witness_Invariant : Invariant afterError := by
  refine ⟨?_, .inr ⟨?_, ?_, ?_, ?_⟩, ?_, ⟨?_, ?_⟩, ⟨?_, ?_⟩⟩ <;> first | (unfold CapsOk; decide +kernel) | decide +kernel

/-- `ReservedAddresses`, the reserved bits of STATUS: the first and last of each field. -/
theorem witness_ReservedAddresses_bits : Invariant afterError ∧
    ∀ k ∈ [4, 7, 16, 30], (4 ≤ k ∧ k ≤ 7 ∨ 16 ≤ k ∧ k ≤ 30) := ⟨witness_Invariant, by decide⟩

/-- `LegalWrites`: each kind of write, the SRC write at the first and last index. -/
theorem witness_LegalWrites :
    0x004#32 ∈ [0x004#32, 0x00C#32, 0x018#32, 0x01C#32] ∧ 0x01C#32 ∈ [0x004#32, 0x00C#32, 0x018#32, 0x01C#32] ∧
    (hostDoes [.write .b4 0x01C#32 1]).pending = [.write .b4 0x01C#32 1] ∧
    (0x80000000 ≤ (0x80000000#32).toNat ∧ (0xBFFFFFFF#32).toNat ≤ 0xBFFFFFFF) ∧
    (hostDoes [.write .b1 0xBFFFFFFF#32 1]).pending = [.write .b1 0xBFFFFFFF#32 1] ∧
    ([0, 0xFFF].all fun i => decide (i < (hostDoes []).srcCapr.toNat ∧
      (hostDoes [.write .b1 (BitVec.ofNat 32 (0x40000000 + i)) 1]).pending =
        [.write .b1 (BitVec.ofNat 32 (0x40000000 + i)) 1])) = true ∧
    (hostDoes [.write .b4 0x008#32 1]).pending = [.write .b4 0x008#32 1] ∧
    (hostDoes [.write .b4 0x010#32 1]).pending = [.write .b4 0x010#32 1] ∧
    (hostDoes [.write .b4 0x014#32 1]).pending = [.write .b4 0x014#32 1] ∧
    (hostDoes [cmdWrite 0x10#64]).pending = [cmdWrite 0x10#64] := by decide +kernel

theorem witness_ReadsHaveNoSideEffect : ∃ t,
    (hostDoes [.read .b4 0x004#32]).pending = [.read .b4 0x004#32] ∧ step (hostDoes [.read .b4 0x004#32]) = .next t :=
  ⟨_, rfl, rfl⟩

theorem witness_LaterReset : (hostDoes [.reset]).pending = .reset :: [] := rfl

theorem witness_IdleWithoutHost : State.reset.pending = [] := rfl

theorem witness_LegalHostNeverStops : HostOk (hostDoes [.read .b4 0x004#32, cmdWrite 0x10#64, .reset]) ∧
    step (hostDoes [.read .b2 0x004#32]) = .refused .busError :=
  ⟨by unfold HostOk; decide, rfl⟩

theorem witness_StepKeepsInv : ∃ t, Invariant { afterError with pending := [.reset] } ∧
    step { afterError with pending := [.reset] } = .next t := ⟨_, witness_Invariant, rfl⟩

theorem witness_CapacitiesNeverChange : (∃ t, step (hostDoes [.reset]) = .next t) ∧
    (hostDoes [.read .b4 0x018#32]).pending = [.read .b4 0x018#32] ∧
    (hostDoes [.read .b4 0x01C#32]).pending = [.read .b4 0x01C#32] ∧
    (hostDoes [.write .b4 0x01C#32 1]).pending = [.write .b4 0x01C#32 1] := ⟨⟨_, rfl⟩, rfl, rfl, rfl⟩

theorem witness_DoneFromFirstCommand :
    (∃ t, (hostDoes [cmdWrite 0x10#64]).pending = [cmdWrite 0x10#64] ∧ step (hostDoes [cmdWrite 0x10#64]) = .next t) ∧
    (∃ t, (hostDoes [.write .b4 0x008#32 1]).pending = [.write .b4 0x008#32 1] ∧
      HostEvent.write .b4 0x008#32 1 ≠ .reset ∧ (∀ d, HostEvent.write .b4 0x008#32 1 ≠ cmdWrite d) ∧
      step (hostDoes [.write .b4 0x008#32 1]) = .next t) :=
  ⟨⟨_, rfl, rfl⟩, _, rfl, by decide, fun d h => by simp [cmdWrite] at h, rfl⟩

/-- `CommandsFinishOrRaise`, `CodesByCommand`, `DstNeverRead`, `StatusNeverRead`: a command that succeeds and one that
fails answer a next state. -/
theorem witness_exec : (∃ t, exec .hexEnc (withSrc []) = .next t ∧ codeOf t = 0) ∧
    (∃ t, exec .hexDec (withSrc (text ['z'])) = .next t ∧ codeOf t = 1) := ⟨⟨_, rfl, by decide⟩, _, rfl, by decide⟩

/-- `ValWriters`: a command that never writes VAL, and one that does but fails. -/
theorem witness_ValWriters : (∃ t, exec .hexEnc (withSrc []) = .next t ∧ writesVal .hexEnc = false) ∧
    (∃ t, exec .intDec16Le (withSrc []) = .next t ∧ codeOf t ≠ 0) := ⟨⟨_, rfl, rfl⟩, _, rfl, by decide⟩

/-- `RangeExactly`: each condition just broken and just met. -/
theorem witness_RangeExactly : rangeCondition (smallest 65#32) .hexEnc ∧ rangeCondition (withLen 0x801#32) .hexEnc ∧
    ¬ rangeCondition (withLen 0x800#32) .hexEnc ∧ rangeCondition (withLen 3#32) .intDec32Le ∧
    ¬ rangeCondition (withLen 4#32) .intDec32Le ∧ rangeCondition (withLen 17#32) .mapBuild ∧
    ¬ rangeCondition (withLen 16#32) .mapBuild := by unfold rangeCondition; decide +kernel

/-- `DstAfterError` and `DrawnAfterError`: each kind of error. -/
theorem witness_DstAfterError :
    (∃ t, exec .hexDec (withSrc (text ['z'])) = .next t ∧ codeOf t = 1) ∧
    (∃ t, exec .hexDec (withSrc (text ['a', 'b', 'c'])) = .next t ∧ codeOf t = 2) ∧
    (∃ t, exec .b64DecStd (withSrc []) = .next t ∧ codeOf t ≠ 0 ∧ codeOf t ≠ 1 ∧ codeOf t ≠ 2) :=
  ⟨⟨_, rfl, by decide⟩, ⟨_, rfl, by decide⟩, _, rfl, by decide⟩

/-- `SrcBeyondLenNeverRead`: contents that differ at SRC_LEN only. -/
theorem witness_SrcBeyondLenNeverRead : ∃ t,
    (∀ j < (withSrc [1#8]).n, ({ withSrc [1#8] with src := [(0, 1#8), (1, 2#8)] } : State).srcByte j = (withSrc [1#8]).srcByte j) ∧
    exec .hexEnc (withSrc [1#8]) = .next t := ⟨_, by decide, rfl⟩

/-! The RANGE premises of the encode and decode statements: SRC_CAP broken, DST_CAP broken, both met. -/

theorem witness_rangeFails_src : rangeFails (smallest 65#32) 0 := .inl (by decide)

theorem witness_rangeFails_dst : rangeFails { smallest 64#32 with srcCapr := 512#32 } 257 := .inr (by decide)

theorem witness_HexEncode : ¬ rangeFails (smallest 64#32) (2 * (smallest 64#32).n) := by unfold rangeFails; decide +kernel

/-- `HexDecode`: the first failing symbol, at the last place. -/
theorem witness_HexDecode_error : ¬ rangeFails (withSrc (text ['a', 'b', 'z'])) 1 ∧ 2 < (withSrc (text ['a', 'b', 'z'])).n ∧
    hexDmap ((withSrc (text ['a', 'b', 'z'])).srcByte 2) = 0xFF#8 ∧
    ∀ q < 2, hexDmap ((withSrc (text ['a', 'b', 'z'])).srcByte q) ≠ 0xFF#8 := by unfold rangeFails; decide +kernel

/-- `HexDecode`: an odd length, and an even one. -/
theorem witness_HexDecode_lengths :
    (¬ rangeFails (withSrc (text ['F'])) 0 ∧ (∀ p < (withSrc (text ['F'])).n,
      hexDmap ((withSrc (text ['F'])).srcByte p) ≠ 0xFF#8) ∧ (withSrc (text ['F'])).n % 2 = 1) ∧
    (¬ rangeFails (withSrc (text ['0', 'f'])) 1 ∧ (∀ p < (withSrc (text ['0', 'f'])).n,
      hexDmap ((withSrc (text ['0', 'f'])).srcByte p) ≠ 0xFF#8) ∧ (withSrc (text ['0', 'f'])).n % 2 = 0) := by
  unfold rangeFails; decide +kernel

theorem witness_Base32Encode : ¬ rangeFails (withSrc (text ['f'])) 8 := by unfold rangeFails; decide +kernel

/-- A base32 input with a short final group: "MY======". -/
def paddedB32 : State := withSrc (text ['M', 'Y', '=', '=', '=', '=', '=', '='])

/-- A base32 input whose second group fails at its last symbol: "MZXW6YTBMY=====*". -/
def badB32 : State :=
  withSrc (text ['M', 'Z', 'X', 'W', '6', 'Y', 'T', 'B', 'M', 'Y', '=', '=', '=', '=', '=', '*'])

/-- `Base32Decode`: a bad length, and the empty input. -/
theorem witness_Base32Decode_lengths :
    (¬ rangeFails (withLen 7#32) 0 ∧ (withLen 7#32).n % 8 ≠ 0) ∧
    (¬ rangeFails (withSrc []) 0 ∧ ¬ (withSrc []).n % 8 ≠ 0 ∧ (withSrc []).n = 0) := by unfold rangeFails; decide

/-- `Base32Decode`: an input without a failing symbol. -/
theorem witness_Base32Decode_ok : (¬ rangeFails paddedB32 5 ∧ ¬ paddedB32.n % 8 ≠ 0 ∧ 0 < paddedB32.n) ∧
    DataSymbols paddedB32 8 2 ∧ ∀ p < paddedB32.n, ¬ SymbolFails paddedB32 b32StdAlph 8 [2, 4, 5, 7] 2 p := by
  unfold rangeFails DataSymbols SymbolFails; decide +kernel

/-- `Base32Decode`: an input whose last symbol is the first to fail. -/
theorem witness_Base32Decode_error : (¬ rangeFails badB32 10 ∧ ¬ badB32.n % 8 ≠ 0 ∧ 0 < badB32.n ∧ 15 < badB32.n) ∧
    DataSymbols badB32 8 2 ∧ SymbolFails badB32 b32StdAlph 8 [2, 4, 5, 7] 2 15 ∧
    ∀ q < 15, ¬ SymbolFails badB32 b32StdAlph 8 [2, 4, 5, 7] 2 q := by
  unfold rangeFails DataSymbols SymbolFails; decide +kernel

theorem witness_Base64Encode : ¬ rangeFails (withSrc (text ['f'])) 4 := by unfold rangeFails; decide +kernel

/-- A base64 input with a short final group: "Zg==". -/
def paddedB64 : State := withSrc (text ['Z', 'g', '=', '='])

/-- A base64 input whose first `=` stands too early: "Z===". -/
def badB64 : State := withSrc (text ['Z', '=', '=', '='])

/-- `Base64Decode`: the empty input, and a bad length. -/
theorem witness_Base64Decode_lengths :
    (¬ rangeFails (withSrc []) 0 ∧ ((withSrc []).n = 0 ∨ (withSrc []).n % 4 ≠ 0)) ∧
    (¬ rangeFails (withLen 3#32) 0 ∧ ((withLen 3#32).n = 0 ∨ (withLen 3#32).n % 4 ≠ 0)) := by unfold rangeFails; decide

/-- `Base64Decode`: an input without a failing symbol. -/
theorem witness_Base64Decode_ok :
    (¬ rangeFails paddedB64 3 ∧ ¬ (paddedB64.n = 0 ∨ paddedB64.n % 4 ≠ 0) ∧ 0 < paddedB64.n) ∧ DataSymbols paddedB64 4 2 ∧
    ∀ p < paddedB64.n, ¬ SymbolFails paddedB64 b64StdAlph 4 [2, 3] 2 p := by
  unfold rangeFails DataSymbols SymbolFails; decide +kernel

/-- `Base64Decode`: an input whose first `=` fails. -/
theorem witness_Base64Decode_error :
    (¬ rangeFails badB64 3 ∧ ¬ (badB64.n = 0 ∨ badB64.n % 4 ≠ 0) ∧ 0 < badB64.n ∧ 1 < badB64.n) ∧ DataSymbols badB64 4 1 ∧
    SymbolFails badB64 b64StdAlph 4 [2, 3] 1 1 ∧ ∀ q < 1, ¬ SymbolFails badB64 b64StdAlph 4 [2, 3] 1 q := by
  unfold rangeFails DataSymbols SymbolFails; decide +kernel

/-- `Base64RoundTrip`: an input that fits, and its encoding copied back. -/
theorem witness_Base64RoundTrip : ∃ t, (withSrc (text ['f'])).n ≤ (withSrc (text ['f'])).srcCapr.toNat ∧
    0 < (withSrc (text ['f'])).n ∧ 4 ≤ (withSrc (text ['f'])).dstCapr.toNat ∧
    exec .b64EncStd (withSrc (text ['f'])) = .next t ∧ CopiedBack t paddedB64 3 := by
  refine ⟨_, by decide, by decide, by decide, rfl, ?_⟩
  unfold CopiedBack; decide +kernel

/-- `Base32RoundTrip`: an input that fits, and its encoding copied back. -/
theorem witness_Base32RoundTrip : ∃ t, (withSrc (text ['f'])).n ≤ (withSrc (text ['f'])).srcCapr.toNat ∧
    8 ≤ (withSrc (text ['f'])).dstCapr.toNat ∧
    exec .b32EncStd (withSrc (text ['f'])) = .next t ∧ CopiedBack t paddedB32 5 := by
  refine ⟨_, by decide, by decide, rfl, ?_⟩
  unfold CopiedBack; decide +kernel

/-- `HexRoundTrip`: an input that fits, and its encoding copied back. -/
theorem witness_HexRoundTrip : ∃ t, (withSrc (text ['a'])).n ≤ (withSrc (text ['a'])).srcCapr.toNat ∧
    2 ≤ (withSrc (text ['a'])).dstCapr.toNat ∧
    exec .hexEnc (withSrc (text ['a'])) = .next t ∧ CopiedBack t (withSrc (text ['6', '1'])) 1 := by
  refine ⟨_, by decide, by decide, rfl, ?_⟩
  unfold CopiedBack; decide +kernel

/-- `HexRoundTrip`: the length laws and the decoded sequence. -/
theorem witness_HexRoundTrip_lengths : ∃ t t' v, exec .hexEnclen (withLen 3#32) = .next t ∧
    (withLen 6#32).srcLen = t.valLo ∧ t.valHi = 0#32 ∧ exec .hexDeclen (withLen 6#32) = .next v ∧
    (withLen 3#32).n ≤ (withLen 6#32).n ∧ exec .hexEnclen (withLen 6#32) = .next t' ∧
    hexDecode (text ['a', 'B']) = .ok [0xAB#8] :=
  ⟨_, _, _, rfl, by decide, by decide, rfl, by decide, rfl, by decide⟩

/-- `IntegerDecode`: SRC_LEN one too small, one too large, exact. -/
theorem witness_IntegerDecode : (withLen 1#32).n ≠ 2 ∧ (withLen 3#32).n ≠ 2 ∧ (withLen 2#32).n = 2 := by decide

/-- `IntegerRoundTrip`: the largest value of 16 bits and its bytes copied back, and the reverse. -/
theorem witness_IntegerRoundTrip : (∃ t, valNat (withVal 0#32 0xFFFF#32) < 2 ^ (8 * 2) ∧
      exec .intEnc16Le (withVal 0#32 0xFFFF#32) = .next t ∧ (withSrc [0xFF#8, 0xFF#8]).n = 2 ∧
      ∀ j < 2, (withSrc [0xFF#8, 0xFF#8]).srcByte j = t.dstByte j) ∧
    (∃ t, (withSrc [0xFF#8, 0xFF#8]).n = 2 ∧ exec .intDec16Le (withSrc [0xFF#8, 0xFF#8]) = .next t ∧
      valNat (withVal 0#32 0xFFFF#32) = valNat t) :=
  ⟨⟨_, by decide, rfl, by decide, by decide +kernel⟩, _, by decide, rfl, by decide +kernel⟩

/-- A valid alphabet of 16 symbols, and one whose last symbol repeats. -/
def goodAlphabet : State := withSrc hexAlph

def badAlphabet : State :=
  withSrc (text ['0', '1', '2', '3', '4', '5', '6', '7', '8', '9', 'a', 'b', 'c', 'd', 'e', 'e'])

/-- `MapBuild`: a bad number of symbols, a repeated symbol at the last place, a valid alphabet. -/
theorem witness_MapBuild :
    ¬ ((withLen 17#32).n = 16 ∨ (withLen 17#32).n = 32 ∨ (withLen 17#32).n = 64) ∧
    (badAlphabet.n = 16 ∧ 15 < badAlphabet.n ∧
      (badAlphabet.srcByte 15 = 0x3D#8 ∨ ∃ q < 15, badAlphabet.srcByte q = badAlphabet.srcByte 15) ∧
      ∀ r < 15, badAlphabet.srcByte r ≠ 0x3D#8 ∧ ∀ q < r, badAlphabet.srcByte q ≠ badAlphabet.srcByte r) ∧
    (goodAlphabet.n = 16 ∧
      ∀ p < goodAlphabet.n, goodAlphabet.srcByte p ≠ 0x3D#8 ∧ ∀ q < p, goodAlphabet.srcByte q ≠ goodAlphabet.srcByte p) := by
  decide +kernel

theorem witness_InverseOfAlphabet : hexAlph.Nodup ∧ 15 < hexAlph.length ∧ 0x41#8 ∉ hexAlph := by decide

/-- `MapCrossCheck`: the hex alphabet read and copied back. -/
theorem witness_MapCrossCheck_hex : ∃ t, exec .alphHex (withSrc []) = .next t ∧ goodAlphabet.srcLen = t.dstLen ∧
    ∀ j < t.dstLen.toNat, goodAlphabet.srcByte j = t.dstByte j := ⟨_, rfl, by decide, by decide +kernel⟩

/-- `MapCrossCheck`: a base32 and a base64 alphabet read and copied back. -/
theorem witness_MapCrossCheck :
    (∃ t, exec .alphB32Hex (withSrc []) = .next t ∧ (withSrc b32HexAlph).srcLen = t.dstLen ∧
      ∀ j < t.dstLen.toNat, (withSrc b32HexAlph).srcByte j = t.dstByte j) ∧
    (∃ t, exec .alphB64Std (withSrc []) = .next t ∧ (withSrc b64StdAlph).srcLen = t.dstLen ∧
      ∀ j < t.dstLen.toNat, (withSrc b64StdAlph).srcByte j = t.dstByte j) :=
  ⟨⟨_, rfl, by decide, by decide +kernel⟩, _, rfl, by decide, by decide +kernel⟩

end Sys2Proof.Tests
end

section
/-! PROOFS of the family 10_state.md: the capacity registers (R29) and the decode map of an alphabet (R40). -/

namespace Sys2Proof.Machine

/-! ### The capacities -/

/-- The register SRC_CAPR is wide enough for every allowed SRC_CAP (R7). -/
theorem reset_srcCapr_toNat : State.reset.srcCapr.toNat = Config.srcCap := by
  have h : Config.srcCap < 2 ^ 32 := by unfold Config.srcCap; omega
  exact (BitVec.toNat_ofNat _ _).trans (Nat.mod_eq_of_lt h)

/-- The register DST_CAPR is wide enough for every allowed DST_CAP (R7). -/
theorem reset_dstCapr_toNat : State.reset.dstCapr.toNat = Config.dstCap := by
  have h : Config.dstCap < 2 ^ 32 := by unfold Config.dstCap; omega
  exact (BitVec.toNat_ofNat _ _).trans (Nat.mod_eq_of_lt h)

/-- No step changes a capacity register, a command and a later reset included. -/
theorem step_keepsCaps {s t : State} (h : step s = .next t) : t.srcCapr = s.srcCapr ∧ t.dstCapr = s.dstCapr := by
  obtain ⟨-, hs⟩ | ⟨e, rest, -, ⟨-, hs⟩ | ⟨-, u, hs, hu⟩⟩ := step_cases s <;> cases h.symm.trans hs
  · exact ⟨rfl, rfl⟩
  · obtain ⟨w, a, -, rfl⟩ | ⟨w, a, d, -, -, hw⟩ | ⟨-, rfl⟩ := hu
    · exact ⟨rfl, rfl⟩
    · exact (busWrite_keepsHost hw).2
    · exact ⟨rfl, rfl⟩

/-- A read of a register's offset answers the register (R51, R55). -/
theorem State.busRead_reg {s : State} {a : Word} {r : Reg} (h : s.placeAt a = .reg r) :
    s.busRead a = .word (s.readReg r) := by
  unfold State.busRead; rw [h]

/-- A write to a register's offset, CMD apart, is that register's write (R54). -/
theorem busWrite_reg {s : State} {a : Word} {d : DWord} {r : Reg} (h : s.placeAt a = .reg r) (hr : r ≠ .cmd) :
    busWrite a d s = .next (s.writeReg r (d.setWidth 32)) := by
  unfold busWrite; rw [h]
  cases r
  case cmd => exact absurd rfl hr
  all_goals rfl

/-- SRC_CAPR stands at offset 0x018 (R51). -/
theorem State.placeAt_srcCapr (s : State) : s.placeAt 0x018#32 = .reg .srcCapr := s.placeAt_window _ (by decide)

/-- DST_CAPR stands at offset 0x01C (R51). -/
theorem State.placeAt_dstCapr (s : State) : s.placeAt 0x01C#32 = .reg .dstCapr := s.placeAt_window _ (by decide)

/-- Settles O18: the reset state by the bounds of R7, every step by the cases of `step_cases`, and the accesses at the
two offsets by what stands there in the address map. -/
theorem capacitiesNeverChange : Obligations.CapacitiesNeverChange := by
  refine ⟨reset_srcCapr_toNat, reset_dstCapr_toNat, fun _ _ => step_keepsCaps, fun s rest h => ?_,
    fun s rest h => ?_, fun s a d rest ha h => ?_⟩
  · rw [step_read h (by decide), State.busRead_reg (State.placeAt_srcCapr s), State.readReg_srcCapr]
  · rw [step_read h (by decide), State.busRead_reg (State.placeAt_dstCapr s), State.readReg_dstCapr]
  · obtain rfl | rfl := ha
    · rw [step_write h (by decide), busWrite_reg (State.placeAt_srcCapr _) (by decide), State.writeReg_srcCapr]
    · rw [step_write h (by decide), busWrite_reg (State.placeAt_dstCapr _) (by decide), State.writeReg_dstCapr]

/-! ### The decode map of an alphabet -/

/-- There are 256 bytes, so no alphabet has more symbols. -/
theorem nodup_bytes_length_le {alph : List Byte} (h : alph.Nodup) : alph.length ≤ 256 := calc
  alph.length ≤ Fintype.card Byte := h.length_le_card
  _ = FinEnum.card Byte := FinEnum.card_eq_fintypeCard.symm
  _ = 256 := FinEnum.card_bitVec 8

/-- `Inverse(A)[A[v]] = v` (R40): `A[v]` stands first at `v`, and `v` fits into the entry. -/
theorem inverse_getElem_toNat {alph : List Byte} (h : alph.Nodup) {v : Nat} (hv : v < alph.length) :
    (inverse alph alph[v]).toNat = v := by
  have hlt : v < 2 ^ 8 := hv.trans_le (nodup_bytes_length_le h)
  rw [inverse, if_pos (alph.getElem_mem hv), h.idxOf_getElem v hv, BitVec.toNat_ofNat, Nat.mod_eq_of_lt hlt]

/-- A byte outside the alphabet has the sentinel as its entry (R40). -/
theorem inverse_of_not_mem {alph : List Byte} {b : Byte} (h : b ∉ alph) : inverse alph b = sentinel := if_neg h

/-- Settles O49, by the first place of a symbol in a sequence without repetition. -/
theorem inverseOfAlphabet : Obligations.InverseOfAlphabet := fun _ h =>
  ⟨fun _ hv => inverse_getElem_toNat h hv, fun _ hb => inverse_of_not_mem hb⟩

end Sys2Proof.Machine
end

section
/-! PROOFS of the family 20_memory.md: the legal access forms (R52), the reserved addresses and the reserved bits of
STATUS (R53), and what each legal write does (R54). -/

namespace Sys2Proof.Machine

/-! ### The legal access forms -/

theorem Width.bytes_eq_four (width : Width) : width.bytes = 4 ↔ width = .b4 := by cases width <;> decide

theorem Width.bytes_eq_one (width : Width) : width.bytes = 1 ↔ width = .b1 := by cases width <;> decide

/-- Settles O6, by the legal forms written out and the refusal of every ill-formed event. -/
theorem busErrorsRefused : Obligations.BusErrorsRefused := by
  refine ⟨fun width addr => ?_, fun _ _ _ _ => step_illFormed, fun _ _ _ _ _ => step_illFormed⟩
  rw [accessLegal_iff, Width.bytes_eq_four, Width.bytes_eq_one, Nat.lt_succ_iff, Nat.succ_le_iff]

/-! ### Reserved addresses -/

/-- Reserved are the addresses between the eight registers and `SRC_BASE`, and those from the capacity of either
buffer window on (R51). -/
theorem State.placeAt_reserved {s : State} (hc : CapsOk s) {a : Word}
    (h : 0x20 ≤ a.toNat ∧ a.toNat < 0x40000000 ∨
      0x40000000 + s.srcCapr.toNat ≤ a.toNat ∧ a.toNat < 0x80000000 ∨
      0x80000000 + s.dstCapr.toNat ≤ a.toNat) : s.placeAt a = .reserved := by
  by_cases hw : a.toNat < 0x1000
  · have h32 : 32 ≤ a.toNat := by omega
    rw [s.placeAt_window a hw, regAt_none _ (.inl h32)]
  · have ⟨_, hsrc, _⟩ := hc
    rw [s.placeAt_outside hc a (Nat.le_of_not_lt hw), if_neg (by omega), if_neg (by omega)]

/-- A read of a reserved address answers 0 (R53). -/
theorem State.busRead_reserved {s : State} {a : Word} (h : s.placeAt a = .reserved) :
    s.busRead a = if a.toNat ≤ 0xFFF then .word 0#32 else .byte 0#8 := by
  unfold State.busRead windowEnd; rw [h]
  simp only [Nat.lt_succ_iff]; rfl

/-- A write to a reserved address is ignored (R53). -/
theorem busWrite_reserved {s : State} {a : Word} {d : DWord} (h : s.placeAt a = .reserved) :
    busWrite a d s = .next s := by
  unfold busWrite; rw [h]

/-! ### The reserved bits of STATUS -/

/-- Bits 4 to 7 and 16 to 30 of a word are the bits of `statusReserved` (R25). -/
theorem getLsbD_of_statusReserved {w : Word} (h : statusReserved w = 0) {k : Nat}
    (hk : 4 ≤ k ∧ k ≤ 7 ∨ 16 ≤ k ∧ k ≤ 30) : w.getLsbD k = false := by
  have hbit : ∀ j, (statusReserved w).getLsbD j = false := fun j => by rw [h]; exact BitVec.getLsbD_zero
  unfold statusReserved at hbit
  simp only [BitVec.getLsbD_append, BitVec.getLsbD_extractLsb'] at hbit
  obtain ⟨hlo, hhi⟩ | ⟨hlo, hhi⟩ := hk
  · have hj := hbit (k - 4)
    rw [if_pos (by omega), Nat.add_sub_cancel' hlo] at hj
    simpa [show k - 4 < 4 by omega] using hj
  · have hj := hbit (k - 16 + 4)
    rw [if_neg (by omega), Nat.add_sub_cancel, Nat.add_sub_cancel' hlo] at hj
    simpa [show k - 16 < 15 by omega] using hj

/-- The reserved bits of a STATUS word the block can show are 0 (R25, R53). -/
theorem StatusLegal.getLsbD_reserved {w : Word} (h : StatusLegal w) {k : Nat}
    (hk : 4 ≤ k ∧ k ≤ 7 ∨ 16 ≤ k ∧ k ≤ 30) : w.getLsbD k = false := by
  obtain rfl | ⟨-, hres, -⟩ := h
  · exact BitVec.getLsbD_zero
  · exact getLsbD_of_statusReserved hres hk

/-- Settles O9: the map is reserved there, and the invariant holds a legal STATUS word. -/
theorem reservedAddresses : Obligations.ReservedAddresses := by
  refine ⟨fun s width a rest hc hl ha => ?_, fun s ⟨_, hst, _⟩ k hk => hst.getLsbD_reserved hk⟩
  refine ⟨fun h => ?_, fun d h => ?_⟩
  · rw [step_read h hl, State.busRead_reserved (State.placeAt_reserved hc ha)]
  · rw [step_write h hl]
    exact busWrite_reserved (State.placeAt_reserved hc ha)

/-! ### What a legal write does -/

/-- A byte access above the register window is legal (R52). -/
theorem accessLegal_b1 {a : Word} (h : 0x1000 ≤ a.toNat) : accessLegal .b1 a = true :=
  (accessLegal_iff _ _).2 (.inr ⟨h, rfl⟩)

/-- A write to a byte of SRC_BUF sets it (R54). -/
theorem busWrite_src {s : State} {a : Word} {d : DWord} {i : Nat} (h : s.placeAt a = .src i) :
    busWrite a d s = .next (s.writeSrc i (d.setWidth 8)) := by
  unfold busWrite; rw [h]

/-- A write to a byte of DST_BUF is ignored (R54). -/
theorem busWrite_dst {s : State} {a : Word} {d : DWord} {i : Nat} (h : s.placeAt a = .dst i) :
    busWrite a d s = .next s := by
  unfold busWrite; rw [h]

/-- From `DST_BASE` on stand bytes of DST_BUF and reserved addresses, for any capacities (R51). -/
theorem State.placeAt_dstWindow (s : State) {a : Word} (h : 0x80000000 ≤ a.toNat) :
    (∃ i, s.placeAt a = .dst i) ∨ s.placeAt a = .reserved := by
  unfold State.placeAt locate windowEnd srcBase
  simp only []
  rw [if_neg (by omega), if_neg (by omega)]
  split
  · exact .inl ⟨_, rfl⟩
  · exact .inr rfl

/-- A write from `DST_BASE` on is ignored (R53, R54). -/
theorem busWrite_dstWindow (s : State) {a : Word} (d : DWord) (h : 0x80000000 ≤ a.toNat) :
    busWrite a d s = .next s := by
  obtain ⟨i, hp⟩ | hp := s.placeAt_dstWindow h
  · exact busWrite_dst hp
  · exact busWrite_reserved hp

/-- The address of `SRC[i]` as a number: no index below an allowed capacity wraps around (R7, R51). -/
theorem srcAddr_toNat {s : State} (hc : CapsOk s) {i : Nat} (hi : i < s.srcCapr.toNat) :
    (BitVec.ofNat 32 (0x40000000 + i)).toNat = 0x40000000 + i := by
  obtain ⟨-, hcap, -⟩ := hc
  rw [BitVec.toNat_ofNat, Nat.mod_eq_of_lt (by omega)]

/-- `SRC[i]` stands at `SRC_BASE + i` (R51). -/
theorem State.placeAt_src {s : State} (hc : CapsOk s) {i : Nat} (hi : i < s.srcCapr.toNat) :
    s.placeAt (BitVec.ofNat 32 (0x40000000 + i)) = .src i := by
  have ha := srcAddr_toNat hc hi
  rw [s.placeAt_outside hc _ (by omega), ha, if_pos (by omega), Nat.add_sub_cancel_left]

/-- Each register stands at its offset, whatever the capacities (R51). -/
theorem State.placeAt_offset (s : State) (r : Reg) : s.placeAt (BitVec.ofNat 32 r.offset) = .reg r := by
  rw [s.placeAt_window _ (by cases r <;> decide)]
  cases r <;> rfl

/-- A word access at a register's offset is legal (R52). -/
theorem accessLegal_offset (r : Reg) : accessLegal .b4 (BitVec.ofNat 32 r.offset) = true := by cases r <;> decide

/-- A write to a register, CMD apart, is that register's write (R54). -/
theorem step_writeReg {s : State} {d : DWord} {rest : List HostEvent} (r : Reg) (hr : r ≠ .cmd)
    (h : s.pending = .write .b4 (BitVec.ofNat 32 r.offset) d :: rest) :
    step s = .next (({ s with pending := rest, reply := .ack } : State).writeReg r (d.setWidth 32)) := by
  rw [step_write h (accessLegal_offset r), busWrite_reg (State.placeAt_offset _ r) hr]

/-- No command writes CMD (R24). -/
theorem EndsAs.cmd {i : Instr} {s t : State} (e : EndsAs i s t) : t.cmd = s.cmd := by cases e <;> rfl

/-- After a run of a command word, legal or not, CMD holds the word (R24, R215). -/
theorem runCommand_keepsWord (w : Word) (s : State) : ∃ t, runCommand w s = .next t ∧ t.cmd = w := by
  obtain ⟨t, ht, ⟨i, -, e⟩ | ⟨-, rfl⟩⟩ := runCommand_ends w s
  · exact ⟨t, ht, e.cmd⟩
  · exact ⟨_, ht, rfl⟩

/-- A write to `SRC[i]` sets that byte to the datum's low byte (R54). -/
theorem step_writeSrc {s : State} {d : DWord} {rest : List HostEvent} (hc : CapsOk s) {i : Nat}
    (hi : i < s.srcCapr.toNat) (h : s.pending = .write .b1 (BitVec.ofNat 32 (0x40000000 + i)) d :: rest) :
    step s = .next (({ s with pending := rest, reply := .ack } : State).writeSrc i (d.setWidth 8)) := by
  have ha := srcAddr_toNat hc hi
  rw [step_write h (accessLegal_b1 (by omega))]
  exact busWrite_src (State.placeAt_src hc hi)

/-- Settles O10, by what stands at each address and the write of that place. -/
theorem legalWrites : Obligations.LegalWrites := by
  refine fun s d rest => ⟨fun a ha h => ?readOnly, fun a ha _ h => ?dst, fun i hc hi h => ?src,
    step_writeReg .srcLen (by decide), step_writeReg .valLo (by decide), step_writeReg .valHi (by decide),
    fun h => ?cmd⟩
  case readOnly =>
    simp only [List.mem_cons, List.not_mem_nil, or_false] at ha
    obtain rfl | rfl | rfl | rfl := ha
    · exact step_writeReg .status (by decide) h
    · exact step_writeReg .dstLen (by decide) h
    · exact step_writeReg .srcCapr (by decide) h
    · exact step_writeReg .dstCapr (by decide) h
  case dst =>
    rw [step_write h (accessLegal_b1 (by omega))]
    exact busWrite_dstWindow _ d ha
  case src =>
    refine ⟨_, step_writeSrc hc hi h, ?_, fun j hj => ?_, rfl⟩
    · rw [State.srcByte_writeSrc, if_pos rfl]
    · rw [State.srcByte_writeSrc, if_neg hj.symm]; rfl
  case cmd =>
    have hs : step s = runCommand (d.setWidth 32) { s with pending := rest, reply := .ack } :=
      (step_write h (accessLegal_offset .cmd)).trans (busWrite_cmd _ d)
    obtain ⟨t, ht, hcmd⟩ := runCommand_keepsWord (d.setWidth 32) { s with pending := rest, reply := .ack }
    exact ⟨hs, t, hs.trans ht, hcmd⟩

end Sys2Proof.Machine
end

section
/-! PROOFS of the family 30_encoding.md: a word is legal exactly when it stands in the table (R73, R74), and the kinds
of illegal words (R75). Both follow the decoder: the four fields of a word, one lemma per unit, then the whole word. -/

namespace Sys2Proof

/-! ### The fields of a word -/

theorem fieldVar_lt (w : Word) : fieldVar w < 2 := Nat.mod_lt _ (by decide)

/-- The four fields of R71 cover a word. -/
theorem toNat_eq_fields (w : Word) :
    w.toNat = fieldFn w + 16 * fieldUnit w + 256 * fieldVar w + 512 * fieldRsv w := by
  unfold fieldFn fieldUnit fieldVar fieldRsv
  omega

/-- A word is determined by its fields (R71). -/
theorem word_ext_fields {w v : Word} (hr : fieldRsv w = fieldRsv v) (hu : fieldUnit w = fieldUnit v)
    (hf : fieldFn w = fieldFn v) (hv : fieldVar w = fieldVar v) : w = v :=
  BitVec.eq_of_toNat_eq <| by rw [toNat_eq_fields w, toNat_eq_fields v, hr, hu, hf, hv]

theorem fieldFn_eq_extract (w : Word) : fieldFn w = (w.extractLsb' 0 4).toNat := by
  rw [BitVec.extractLsb'_toNat, Nat.shiftRight_zero]; rfl

theorem fieldUnit_eq_extract (w : Word) : fieldUnit w = (w.extractLsb' 4 4).toNat := by
  rw [BitVec.extractLsb'_toNat, Nat.shiftRight_eq_div_pow]; rfl

theorem fieldVar_ne_zero_iff (w : Word) : fieldVar w ≠ 0 ↔ w.getLsbD 8 = true := by
  rw [BitVec.getLsbD, Nat.testBit_eq_decide_div_mod_eq, decide_eq_true_iff]
  exact Nat.mod_two_ne_zero

theorem fieldRsv_ne_zero_iff (w : Word) : fieldRsv w ≠ 0 ↔ w.extractLsb' 9 23 ≠ 0 := by
  have h : (w.extractLsb' 9 23).toNat = fieldRsv w := by
    rw [BitVec.extractLsb'_toNat, Nat.shiftRight_eq_div_pow]
    exact Nat.mod_eq_of_lt (Nat.div_lt_of_lt_mul w.isLt)
  rw [ne_eq, ne_eq, ← BitVec.toNat_inj, h]; rfl

/-! ### What a unit decodes is its row of the table -/

/-- The instruction's row of the table of R73 has these fields. -/
abbrev TableRow (i : Instr) (unit fn var : Nat) : Prop :=
  fieldRsv (encode i) = 0 ∧ fieldUnit (encode i) = unit ∧ fieldFn (encode i) = fn ∧ fieldVar (encode i) = var

theorem tableRow_of_noVariant {unit fn var : Nat} {i j : Instr} (h : noVariant var i = .ok j)
    (row : TableRow i unit fn 0) : TableRow j unit fn var := by
  unfold noVariant at h
  split at h <;> cases h
  next hv => exact hv ▸ row

theorem tableRow_of_twoVariants {unit fn var : Nat} {i0 i1 j : Instr} (hv : var < 2)
    (h : twoVariants var i0 i1 = .ok j) (row0 : TableRow i0 unit fn 0) (row1 : TableRow i1 unit fn 1) :
    TableRow j unit fn var := by
  unfold twoVariants at h
  split at h <;> cases h
  · next h0 => exact h0 ▸ row0
  · next h0 => exact (show var = 1 by omega) ▸ row1

section
variable {fn var : Nat} {i : Instr}

theorem tableRow_of_decodeHex (h : decodeHex fn var = .ok i) : TableRow i 1 fn var := by
  match fn, h with
  | 0, h | 1, h | 2, h | 3, h => exact tableRow_of_noVariant h (by decide)
  | _ + 4, h => cases h

theorem tableRow_of_decodeB32 (hv : var < 2) (h : decodeB32 fn var = .ok i) : TableRow i 2 fn var := by
  match fn, h with
  | 0, h | 1, h => exact tableRow_of_twoVariants hv h (by decide) (by decide)
  | 2, h | 3, h => exact tableRow_of_noVariant h (by decide)
  | _ + 4, h => cases h

theorem tableRow_of_decodeB64 (hv : var < 2) (h : decodeB64 fn var = .ok i) : TableRow i 3 fn var := by
  match fn, h with
  | 0, h | 1, h => exact tableRow_of_twoVariants hv h (by decide) (by decide)
  | 2, h | 3, h => exact tableRow_of_noVariant h (by decide)
  | _ + 4, h => cases h

theorem tableRow_of_decodeInt (hv : var < 2) (h : decodeInt fn var = .ok i) : TableRow i 4 fn var := by
  match fn, h with
  | 0, h | 1, h | 2, h | 3, h | 4, h | 5, h => exact tableRow_of_twoVariants hv h (by decide) (by decide)
  | _ + 6, h => cases h

theorem tableRow_of_decodeMap (hv : var < 2) (h : decodeMap fn var = .ok i) : TableRow i 5 fn var := by
  match fn, h with
  | 0, h | 1, h | 4, h => exact tableRow_of_noVariant h (by decide)
  | 2, h | 3, h | 5, h | 6, h => exact tableRow_of_twoVariants hv h (by decide) (by decide)
  | _ + 7, h => cases h

end

/-- A word that decodes has RSV = 0 and the fields of its instruction's row (R73, R74). -/
theorem tableRow_of_decode {w : Word} {i : Instr} (h : decode w = .ok i) :
    fieldRsv w = 0 ∧ TableRow i (fieldUnit w) (fieldFn w) (fieldVar w) := by
  have hv := fieldVar_lt w
  unfold decode at h
  split at h
  · cases h
  · next hr =>
    refine ⟨of_not_not hr, ?_⟩
    split at h
    · next hu => exact hu ▸ tableRow_of_decodeHex h
    · next hu => exact hu ▸ tableRow_of_decodeB32 hv h
    · next hu => exact hu ▸ tableRow_of_decodeB64 hv h
    · next hu => exact hu ▸ tableRow_of_decodeInt hv h
    · next hu => exact hu ▸ tableRow_of_decodeMap hv h
    · cases h

/-- Every word of the table decodes to its instruction (R73). -/
theorem decode_encode (i : Instr) : decode (encode i) = .ok i := by cases i <;> rfl

/-- Only the instruction's own word decodes to it (R74): its row has the word's fields. -/
theorem eq_encode_of_decode {w : Word} {i : Instr} (h : decode w = .ok i) : w = encode i := by
  obtain ⟨hr, hr', hu, hf, hv⟩ := tableRow_of_decode h
  exact word_ext_fields (hr.trans hr'.symm) hu.symm hf.symm hv.symm

/-- Settles O2: the table's words decode, and a word that decodes has the fields of its table row. -/
theorem decodeIffEncode : Obligations.DecodeIffEncode := fun _ i =>
  ⟨eq_encode_of_decode, fun h => h ▸ decode_encode i⟩

/-! ### Which words a unit rejects -/

theorem noVariant_rejects (var : Nat) (i : Instr) : (∃ e, noVariant var i = .error e) ↔ var ≠ 0 := by
  unfold noVariant
  split <;> simp [*]

theorem twoVariants_accepts (var : Nat) (i0 i1 : Instr) : ¬ ∃ e, twoVariants var i0 i1 = .error e := by
  unfold twoVariants
  split <;> simp

theorem decodeHex_rejects (fn var : Nat) : (∃ e, decodeHex fn var = .error e) ↔ 4 ≤ fn ∨ var ≠ 0 := by
  match fn with
  | 0 | 1 | 2 | 3 => simp [decodeHex, noVariant_rejects]
  | fn + 4 => exact iff_of_true ⟨_, rfl⟩ (.inl (by omega))

theorem decodeB32_rejects (fn var : Nat) :
    (∃ e, decodeB32 fn var = .error e) ↔ 4 ≤ fn ∨ (var ≠ 0 ∧ 2 ≤ fn) := by
  match fn with
  | 0 | 1 => simp [decodeB32, twoVariants_accepts]
  | 2 | 3 => simp [decodeB32, noVariant_rejects]
  | fn + 4 => exact iff_of_true ⟨_, rfl⟩ (.inl (by omega))

theorem decodeB64_rejects (fn var : Nat) :
    (∃ e, decodeB64 fn var = .error e) ↔ 4 ≤ fn ∨ (var ≠ 0 ∧ 2 ≤ fn) := by
  match fn with
  | 0 | 1 => simp [decodeB64, twoVariants_accepts]
  | 2 | 3 => simp [decodeB64, noVariant_rejects]
  | fn + 4 => exact iff_of_true ⟨_, rfl⟩ (.inl (by omega))

theorem decodeInt_rejects (fn var : Nat) : (∃ e, decodeInt fn var = .error e) ↔ 6 ≤ fn := by
  match fn with
  | 0 | 1 | 2 | 3 | 4 | 5 => simp [decodeInt, twoVariants_accepts]
  | fn + 6 => exact iff_of_true ⟨_, rfl⟩ (by omega)

theorem decodeMap_rejects (fn var : Nat) :
    (∃ e, decodeMap fn var = .error e) ↔ 7 ≤ fn ∨ (var ≠ 0 ∧ (fn = 0 ∨ fn = 1 ∨ fn = 4)) := by
  match fn with
  | 0 | 1 | 4 => simp [decodeMap, noVariant_rejects]
  | 2 | 3 | 5 | 6 => simp [decodeMap, twoVariants_accepts]
  | fn + 7 => exact iff_of_true ⟨_, rfl⟩ (.inl (by omega))

/-- The four kinds of illegal words (R75), in the fields of R71. -/
theorem decode_rejects (w : Word) : (∃ e, decode w = .error e) ↔
    fieldRsv w ≠ 0 ∨ fieldUnit w = 0 ∨ 6 ≤ fieldUnit w ∨
    ((fieldUnit w = 1 ∨ fieldUnit w = 2 ∨ fieldUnit w = 3) ∧ 4 ≤ fieldFn w) ∨
    (fieldUnit w = 4 ∧ 6 ≤ fieldFn w) ∨ (fieldUnit w = 5 ∧ 7 ≤ fieldFn w) ∨
    (fieldVar w ≠ 0 ∧ (fieldUnit w = 1 ∨ ((fieldUnit w = 2 ∨ fieldUnit w = 3) ∧ 2 ≤ fieldFn w) ∨
      (fieldUnit w = 5 ∧ (fieldFn w = 0 ∨ fieldFn w = 1 ∨ fieldFn w = 4)))) := by
  unfold decode
  split
  · next hr => exact iff_of_true ⟨_, rfl⟩ (.inl hr)
  · next hr =>
    split
    · next hu => simp [decodeHex_rejects, hr, hu]
    · next hu => simp [decodeB32_rejects, hr, hu]
    · next hu => simp [decodeB64_rejects, hr, hu]
    · next hu => simp [decodeInt_rejects, hr, hu]
    · next hu => simp [decodeMap_rejects, hr, hu]
    · next h1 h2 h3 h4 h5 =>
      simp only [imp_false] at h1 h2 h3 h4 h5
      exact iff_of_true ⟨_, rfl⟩ (by omega)

/-- Running an illegal word stores it in CMD and raises ILLEGAL_CMD with byte 0, no more (R75, R215). -/
theorem Machine.runCommand_illegal {w : Word} {e : Illegal} (h : decode w = .error e) (s : Machine.State) :
    Machine.runCommand w s = .next { s with cmd := w, status := 0x80000004#32, dstLen := 0#32 } := by
  unfold Machine.runCommand
  rw [h]; rfl

/-- Settles O3: what each unit rejects, and the run of a word that decodes to an error. -/
theorem illegalWords : Obligations.IllegalWords := by
  refine fun w => ⟨?_, fun ⟨_, he⟩ s => Machine.runCommand_illegal he s⟩
  rw [decode_rejects, fieldRsv_ne_zero_iff, fieldVar_ne_zero_iff, fieldUnit_eq_extract, fieldFn_eq_extract]

end Sys2Proof
end

section
/-! PROOFS of the family 40_hex.md: HEX.ENC (R102), HEX.DEC (R101, R103) and the two length commands (R104, R105). First
the ends of a command, said once as how it completes; then what a hex decode gives; then the commands. -/

namespace Sys2Proof.Machine

open Sys2Proof.Claims

/-! ### The shared ends as completions -/

section
variable {i : Instr} {s : State} {len bound : Nat} {out : List Byte} {P : State → Prop}

/-- A command that raises RANGE at once has no other effect (R214, R216). -/
theorem RaisesRange.of_exec (h : exec i s = .next (s.raise .range 0)) : RaisesRange i s :=
  ⟨_, h, .raise (.refl s) .range 0, Raised.raise s .range 0, ⟨rfl, rfl⟩, fun _ _ => rfl⟩

/-- A command that draws the bytes below its decode bound and raises an error (R214). -/
theorem Fails.of_exec_draw {code : StatusCode} {b : Byte}
    (h : exec i s = .next ((s.drawDst bound).raise code b)) : Fails i s code.bits.toNat b bound :=
  ⟨_, h, .raise (.drawDst s bound) code b, Raised.raise _ code b, ⟨rfl, rfl⟩, .drawDst s bound code b⟩

/-- A command that writes its output and finishes (R211). -/
theorem Succeeds.of_exec_write (h : exec i s = .next ((s.writeDst out).finish len)) (hout : out.length = len)
    (hlen : len < 2 ^ 32) (hP : P ((s.writeDst out).finish len)) : Succeeds i s len P :=
  ⟨_, h, .finish (.writeDst s out) len, Finished.finish _ hlen, .writeDst s out len hout.le len, rfl, hP⟩

/-- An encode command raises RANGE when a capacity is too small (R216). -/
theorem RaisesRange.of_endEncode (h : exec i s = .next (s.endEncode s.n len out)) (hr : rangeFails s len) :
    RaisesRange i s := .of_exec (h.trans (congrArg _ (s.endEncode_range out hr)))

/-- An encode command within the capacities writes its output (R102, R123, R143). -/
theorem Succeeds.of_endEncode (h : exec i s = .next (s.endEncode s.n len out)) (hr : ¬ rangeFails s len)
    (hout : out.length = len) (hP : P ((s.writeDst out).finish len)) : Succeeds i s len P := by
  have hcap : len ≤ s.dstCapr.toNat := not_lt.1 fun hlt => hr (.inr hlt)
  exact .of_exec_write (h.trans (congrArg _ (s.endEncode_ok out hr))) hout (hcap.trans_lt s.dstCapr.isLt) hP

section
variable {r : Except CodecError (List Byte)} (h : exec i s = .next (s.endDecode s.n bound r))
include h

/-- A decode command raises RANGE when a capacity is too small (R216). -/
theorem RaisesRange.of_endDecode (hr : rangeFails s bound) : RaisesRange i s :=
  .of_exec (h.trans (congrArg _ (s.endDecode_range r hr)))

/-- A decode command reports the byte its codec rejects (R103, R125, R145). -/
theorem Fails.of_endDecode_invalidByte {b : Byte} (hr : ¬ rangeFails s bound)
    (he : r = .error (.invalidByte b)) : Fails i s 1 b bound := by
  subst he
  exact .of_exec_draw (h.trans (congrArg _ (s.endDecode_invalidByte b hr)))

/-- A decode command reports the odd length its codec rejects (R103). -/
theorem Fails.of_endDecode_oddLength (hr : ¬ rangeFails s bound) (he : r = .error .oddLength) :
    Fails i s 2 0#8 bound := by
  subst he
  exact .of_exec_draw (h.trans (congrArg _ (s.endDecode_oddLength hr)))

/-- A decode command within the capacities writes its codec's output, which its bound holds (R103, R125, R145). -/
theorem Succeeds.of_endDecode (hr : ¬ rangeFails s bound) (he : r = .ok out) (hout : out.length = len)
    (hle : len ≤ bound) (hP : P ((s.writeDst out).finish len)) : Succeeds i s len P := by
  subst he hout
  have hcap : bound ≤ s.dstCapr.toNat := not_lt.1 fun hlt => hr (.inr hlt)
  exact .of_exec_write (h.trans (congrArg _ (s.endDecode_ok out hr))) rfl
    ((hle.trans hcap).trans_lt s.dstCapr.isLt) hP

end

/-- A command that ends with a length leaves it in VAL, exact when it fits into 64 bits (R104, R105). -/
theorem lengthCommand_of_endLength {f : Nat → Nat} (h : ∀ s, exec i s = .next (s.endLength (f s.n)))
    (hf : ∀ n < 2 ^ 32, f n < 2 ^ 64) : LengthCommand i f := fun s =>
  ⟨_, h s, .finish (.writeVal s _) 0, Finished.finish _ (by decide), fun _ _ => rfl, rfl,
    valNat_endLength s (hf s.n s.srcLen.isLt)⟩

end

/-! ### What a hex decode gives -/

/-- The input symbols have a property when the bytes below `k` have it. -/
theorem State.forall_mem_srcBytes {s : State} {k : Nat} {p : Byte → Prop} :
    (∀ c ∈ s.srcBytes k, p c) ↔ ∀ j < k, p (s.srcByte j) := by
  simp only [State.srcBytes, List.forall_mem_map, List.mem_range]

theorem State.srcBytes_getElem? (s : State) {k j : Nat} (h : j < k) : (s.srcBytes k)[j]? = some (s.srcByte j) := by
  simp [State.srcBytes, h]

/-- The input around its symbol at `p`. -/
theorem State.srcBytes_split (s : State) {k p : Nat} (h : p < k) :
    ∃ rest, s.srcBytes k = s.srcBytes p ++ s.srcByte p :: rest := by
  refine ⟨bytesOf s.srcByte (p + 1) (k - p - 1), ?_⟩
  rw [s.srcBytes_eq_bytesOf k, s.srcBytes_eq_bytesOf p, bytesOf_split _ 0 k p h, Nat.zero_add]

/-- A hex digit's value is a nibble (R42). -/
theorem hexDmap_toNat_lt {b : Byte} (h : hexDmap b ≠ sentinel) : (hexDmap b).toNat < 16 := by
  unfold hexDmap at h ⊢
  split_ifs at h ⊢
  · rw [BitVec.toNat_ofNat]; omega
  · rw [BitVec.toNat_ofNat]; omega
  · rw [BitVec.toNat_ofNat]; omega
  · exact absurd rfl h

/-- Two nibbles make a byte, so a decoded byte is exactly its pair's number (R101). -/
theorem hexPair_toNat {p q : Byte} (hp : hexDmap p ≠ sentinel) (hq : hexDmap q ≠ sentinel) :
    (BitVec.ofNat 8 ((hexDmap p).toNat * 16 + (hexDmap q).toNat)).toNat
      = (hexDmap p).toNat * 16 + (hexDmap q).toNat := by
  have hp := hexDmap_toNat_lt hp
  have hq := hexDmap_toNat_lt hq
  rw [BitVec.toNat_ofNat]; omega

/-- The first symbol that is no hex digit is the error, in either place of its pair (R101). -/
theorem hexDecode_firstBad (as : List Byte) (c : Byte) (bs : List Byte) (h : ∀ a ∈ as, hexDmap a ≠ sentinel)
    (hc : hexDmap c = sentinel) : hexDecode (as ++ c :: bs) = .error (.invalidByte c) := by
  induction as using List.twoStepInduction with
  | nil => cases bs <;> simp [hexDecode, hc]
  | singleton a => simp [hexDecode, h a (by simp), hc]
  | cons_cons a b as ih _ =>
    have ih := ih fun x hx => h x (by simp [hx])
    simp [hexDecode, h a (by simp), h b (by simp), ih]

/-- Hex digits of an odd number are an odd length (R101). -/
theorem hexDecode_oddLength (x : List Byte) (h : ∀ a ∈ x, hexDmap a ≠ sentinel) (hodd : x.length % 2 = 1) :
    hexDecode x = .error .oddLength := by
  induction x using List.twoStepInduction with
  | nil => simp at hodd
  | singleton a => simp [hexDecode, h a (by simp)]
  | cons_cons a b x ih _ =>
    have ih := ih (fun c hc => h c (by simp [hc])) (by simpa [Nat.add_assoc] using hodd)
    simp [hexDecode, h a (by simp), h b (by simp), ih]

/-- Hex digits of an even number decode (R101). -/
theorem hexDecode_exists_ok (x : List Byte) (h : ∀ a ∈ x, hexDmap a ≠ sentinel) (heven : x.length % 2 = 0) :
    ∃ out, hexDecode x = .ok out := by
  induction x using List.twoStepInduction with
  | nil => exact ⟨_, rfl⟩
  | singleton a => simp at heven
  | cons_cons a b x ih _ =>
    obtain ⟨out, ih⟩ := ih (fun c hc => h c (by simp [hc])) (by simpa [Nat.add_assoc] using heven)
    simp [hexDecode, h a (by simp), h b (by simp), ih]

/-- Byte `i` of a hex decode is made of the symbols `2i` and `2i + 1` (R101). -/
theorem hexDecode_getElem? {x out : List Byte} (hx : hexDecode x = .ok out) {i : Nat} {p q : Byte}
    (hp : x[2 * i]? = some p) (hq : x[2 * i + 1]? = some q) :
    out[i]? = some (BitVec.ofNat 8 ((hexDmap p).toNat * 16 + (hexDmap q).toNat)) := by
  induction x using hexDecode.induct generalizing out i with
  | case1 => simp at hp
  | case2 c hc => simp [hexDecode, hc] at hx
  | case3 c hc => simp [hexDecode, hc] at hx
  | case4 a b rest ha => simp [hexDecode, ha] at hx
  | case5 a b rest ha hb => simp [hexDecode, ha, hb] at hx
  | case6 a b rest ha hb e he => simp [hexDecode, ha, hb, he] at hx
  | case7 a b rest ha hb bytes hrest ih =>
    simp only [hexDecode, ha, hb, hrest, if_false, Except.ok.injEq] at hx
    subst hx
    cases i with
    | zero => cases hp; cases hq; rfl
    | succ i => exact ih hrest hp hq

end Sys2Proof.Machine

/-! ### The commands -/

namespace Sys2Proof.Hex

open Sys2Proof.Machine

/-- Settles O30: the two symbols of each byte stand at `2i` and `2i + 1` of the encoding. -/
theorem hexEncode : Obligations.HexEncode := by
  refine ⟨decode_encode .hexEnc, fun s => ⟨.of_endEncode rfl, fun hr =>
    .of_endEncode rfl hr (by simp) ⟨⟨rfl, rfl⟩, fun i hi => ?_⟩⟩⟩
  obtain ⟨hhigh, hlow⟩ := hexEncode_getElem? (s.srcBytes s.n) i
  rw [s.srcBytes_getElem? hi] at hhigh hlow
  exact ⟨s.dstByte_wrote _ _ _ _ hhigh, s.dstByte_wrote _ _ _ _ hlow⟩

/-- Settles O31, by what a decode gives in each case: a first bad symbol, an odd length, or whole pairs. -/
theorem hexDecode : Obligations.HexDecode := by
  refine ⟨decode_encode .hexDec, fun s => ⟨.of_endDecode rfl, fun hr => ⟨fun p hp hbad hgood => ?firstBad,
    fun hgood hodd => ?odd, fun hgood heven => ?pairs⟩⟩⟩
  case firstBad =>
    obtain ⟨rest, hsplit⟩ := s.srcBytes_split hp
    refine .of_endDecode_invalidByte rfl hr ?_
    rw [hsplit]
    exact hexDecode_firstBad _ _ _ (State.forall_mem_srcBytes.2 hgood) hbad
  case odd =>
    exact .of_endDecode_oddLength rfl hr
      (hexDecode_oddLength _ (State.forall_mem_srcBytes.2 hgood) (by simpa using hodd))
  case pairs =>
    obtain ⟨out, hout⟩ := hexDecode_exists_ok _ (State.forall_mem_srcBytes.2 hgood) (by simpa using heven)
    have hlen : 2 * out.length = s.n := by simpa using hexDecode_length hout
    refine .of_endDecode rfl hr hout (by omega) le_rfl ⟨⟨rfl, rfl⟩, fun i hi => ?_⟩
    have hp : 2 * i < s.n := by omega
    have hq : 2 * i + 1 < s.n := by omega
    have hbyte := hexDecode_getElem? hout (s.srcBytes_getElem? hp) (s.srcBytes_getElem? hq)
    rw [s.dstByte_wrote _ _ _ _ hbyte, hexPair_toNat (hgood _ hp) (hgood _ hq)]

/-- Settles O32: twice and half a 32-bit length fit into 64 bits. -/
theorem hexLengths : Obligations.HexLengths :=
  ⟨decode_encode .hexEnclen, decode_encode .hexDeclen,
    lengthCommand_of_endLength (fun _ => rfl) fun _ _ => by omega,
    lengthCommand_of_endLength (fun _ => rfl) fun _ _ => by omega⟩

end Sys2Proof.Hex
end

section
/-! PROOFS of the family 41_base32.md: the base32 encodes (R121, R123, R124), decodes (R122, R125, R126) and length
commands (R127, R128). What base32 shares with base64 is said once, for every geometry, and then used for base32. -/

namespace Sys2Proof.Machine

open Sys2Proof.Claims

/-! ### An encode command of a geometry (R121, R141) -/

/-- Group `i` of the input, short when the input ends within it. -/
theorem State.srcBytes_group (s : State) (n size i : Nat) :
    ((s.srcBytes n).drop (size * i)).take size = bytesOf s.srcByte (size * i) (min size (n - size * i)) := by
  refine List.ext_getElem? fun j => ?_
  rw [s.srcBytes_eq_bytesOf, bytesOf_drop, List.getElem?_take, bytesOf_getElem?, bytesOf_getElem?, Nat.zero_add]
  simp only [← ite_and, Nat.lt_min]

/-- The number of a group, left-justified, is the sum the statements write. -/
theorem beValue_group (s : State) (size i : Nat) :
    beValue (bytesOf s.srcByte (size * i) (min size (s.n - size * i))) * 2 ^ (8 * (size - min size (s.n - size * i)))
      = groupNumber s size i := by
  have h := beValue_leftJustified (bytesOf s.srcByte (size * i) (min size (s.n - size * i))) size (by simp)
  rw [bytesOf_length] at h
  rw [h, groupNumber]
  congr 1
  refine List.map_congr_left fun j hj => ?_
  rw [bytesOf_getElem?, if_pos (List.mem_range.1 hj)]
  rfl

/-- Symbol `j` of an encoded group: a field of the group's left-justified number while it carries data, else `=`. -/
theorem encodeGroup_getElem? (g : Geometry) (alph bs : List Byte) {j : Nat} (hj : j < g.symbols) :
    (encodeGroup g alph bs)[j]? = some (if j < (8 * bs.length + g.bits - 1) / g.bits
      then symbol alph (beValue bs * 2 ^ (8 * (g.bytes - bs.length)) / 2 ^ (g.bits * (g.symbols - 1 - j)) % 2 ^ g.bits)
      else 0x3D#8) := by
  unfold encodeGroup ceilDiv padByte
  rw [List.getElem?_map, List.getElem?_range hj, Option.map_some]

/-- A command that ends with the encoding of its input is an encode command of that geometry. -/
theorem encodeCommand_of_endEncode {i : Instr} {alph : List Byte} {g : Geometry} (hg : 0 < g.bytes)
    (h : ∀ s, exec i s = .next (s.endEncode s.n ((s.n + g.bytes - 1) / g.bytes * g.symbols)
      (encodeGroups g alph (s.srcBytes s.n)))) : EncodeCommand i alph g.bytes g.symbols g.bits := by
  refine fun s => ⟨.of_endEncode (h s), fun hr => .of_endEncode (h s) hr ?_ ⟨⟨rfl, rfl⟩, fun a ha j hj => ?_⟩⟩
  · rw [encodeGroups_length g hg, State.n_srcBytes_length]
  · have hlt : g.bytes * a < s.n := by
      have := Nat.mul_le_of_le_div _ _ _ (Nat.succ_le_of_lt ha)
      rw [Nat.succ_mul, Nat.mul_comm] at this
      omega
    have hsym := encodeGroups_getElem? g hg alph (s.srcBytes s.n) a j (by simpa using hlt) hj
    rw [s.srcBytes_group, encodeGroup_getElem? g alph _ hj, bytesOf_length, beValue_group] at hsym
    exact s.dstByte_wrote _ _ _ _ hsym

/-! ### A decode command of a geometry (R122, R142) -/

section
variable {g : Geometry} {alph : List Byte} {s : State} {G k : Nat} (hn : s.n = g.symbols * (G + 1))
include hn

/-- The final group begins after the `G` groups before it. -/
theorem finalGroup_start : s.n - g.symbols = g.symbols * G := by
  rw [hn, Nat.mul_succ, Nat.add_sub_cancel]

/-- A symbol of SRC fails when it is bad as a symbol of a run of bytes. -/
theorem symbolFails_iff (p : Nat) :
    SymbolFails s alph g.symbols g.padded k p ↔ SymbolBad g (inverse alph) s.srcByte G k p := by
  unfold SymbolFails
  rw [finalGroup_start hn]
  exact Iff.rfl

variable (hs : 0 < g.symbols) (hk : DataSymbols s g.symbols k)
include hs hk

/-- The first failing symbol of SRC is the error of its decode. -/
theorem decodeGroups_srcBytes_firstBad {p : Nat} (hp : p < s.n) (hb : SymbolFails s alph g.symbols g.padded k p)
    (hq : ∀ q < p, ¬ SymbolFails s alph g.symbols g.padded k q) :
    decodeGroups g (inverse alph) (groupsOf g.symbols (s.srcBytes s.n)) = .error (.invalidByte (s.srcByte p)) := by
  obtain ⟨hle, hdata, hpad⟩ := hk
  rw [finalGroup_start hn] at hdata hpad
  simp only [symbolFails_iff hn] at hb hq
  rw [s.srcBytes_eq_bytesOf, hn]
  exact decodeGroups_firstBad hs hle hdata hpad p (hn ▸ hp) hb hq

/-- Without a failing symbol SRC decodes to the bytes of its groups' numbers. -/
theorem decodeGroups_srcBytes_allGood (hb : 0 < g.bytes) (hm : g.bits * k / 8 ≤ g.bytes)
    (hq : ∀ q < s.n, ¬ SymbolFails s alph g.symbols g.padded k q) :
    ∃ out, decodeGroups g (inverse alph) (groupsOf g.symbols (s.srcBytes s.n)) = .ok out ∧
      out.length = G * g.bytes + g.bits * k / 8 ∧
      ∀ b < G * g.bytes + g.bits * k / 8, out[b]? = some (BitVec.ofNat 8
        (symbolsNumber s alph g.symbols g.bits (b / g.bytes) (if b / g.bytes = G then k else g.symbols) /
          2 ^ (8 * (g.bytes - 1 - b % g.bytes)))) := by
  obtain ⟨hle, hdata, hpad⟩ := hk
  rw [finalGroup_start hn] at hdata hpad
  simp only [symbolFails_iff hn] at hq
  rw [s.srcBytes_eq_bytesOf, hn]
  refine ⟨_, decodeGroups_allGood hs hle hdata hpad (hn ▸ hq), ?_, fun b hlt => ?_⟩
  · rw [List.length_append, flatMap_length_const _ g.bytes _ fun _ _ => beBytes_length _ _ _]
    simp
  · rw [decoded_getElem? _ hb hm b hlt, symbolsNumber]
    split
    · next hG => rw [foldl_bytesOf g _ _ _ _ _ hle, hG]
    · next hG =>
      have hfull := foldl_bytesOf g (inverse alph) s.srcByte (g.symbols * (b / g.bytes)) _ _
        (Nat.le_refl g.symbols)
      rw [Nat.sub_self, Nat.mul_zero, pow_zero, Nat.mul_one] at hfull
      rw [hfull]

end

/-- A command that raises an error before it has written a byte (R212). -/
theorem Fails.of_exec_raise {i : Instr} {s : State} {code : StatusCode} {b : Byte}
    (h : exec i s = .next (s.raise code b)) : Fails i s code.bits.toNat b 0 :=
  ⟨_, h, .raise (.refl s) code b, Raised.raise s code b, ⟨rfl, rfl⟩, fun _ _ => rfl⟩

/-- A decode command reports the length its codec rejects (R125, R145). -/
theorem Fails.of_endDecode_invalidLength {i : Instr} {s : State} {bound : Nat} {r : Except CodecError (List Byte)}
    (h : exec i s = .next (s.endDecode s.n bound r)) (hr : ¬ rangeFails s bound) (he : r = .error .invalidLength) :
    Fails i s 3 0#8 0 := by
  subst he
  exact .of_exec_raise (h.trans (congrArg _ (s.endDecode_invalidLength hr)))

/-- A command that ends with what a codec makes of its input is a decode command of a geometry, when the codec rejects
the lengths `badLength` names, all that are no whole number of groups among them, and decodes by groups otherwise. -/
theorem decodeCommand_of_endDecode {i : Instr} {alph : List Byte} {g : Geometry} {badLength : Nat → Prop}
    {codec : List Byte → Except CodecError (List Byte)} (hg : 0 < g.bytes) (hbits : g.bits * g.symbols = 8 * g.bytes)
    (h : ∀ s, exec i s = .next (s.endDecode s.n (s.n / g.symbols * g.bytes) (codec (s.srcBytes s.n))))
    (hwhole : ∀ n, ¬ badLength n → g.symbols ∣ n)
    (hbad : ∀ x, badLength x.length → codec x = .error .invalidLength)
    (hcodec : ∀ x, ¬ badLength x.length → codec x = decodeGroups g (inverse alph) (groupsOf g.symbols x)) :
    DecodeCommand i alph g.bytes g.symbols g.bits g.padded badLength := by
  intro s
  have hlen : (s.srcBytes s.n).length = s.n := s.n_srcBytes_length s.n
  refine ⟨.of_endDecode (h s), fun hr hl => ?badLength, fun hr hl h0 => ?empty, fun hr hl hpos k hk => ?groups⟩
  case badLength => exact .of_endDecode_invalidLength (h s) hr (hbad _ (by rwa [hlen]))
  case empty =>
    refine .of_endDecode (h s) hr (out := []) ?_ rfl (Nat.zero_le _) ⟨rfl, rfl⟩
    rw [hcodec _ (by rwa [hlen]), h0]
    rfl
  case groups =>
    have hs : 0 < g.symbols := Nat.pos_of_ne_zero fun h0 => by rw [h0] at hbits; omega
    have hm : g.bits * k / 8 ≤ g.bytes := by
      have := Nat.mul_le_mul_left g.bits hk.1
      omega
    obtain ⟨m, hm'⟩ := hwhole _ hl
    obtain ⟨G, rfl⟩ : ∃ G, m = G + 1 := Nat.exists_eq_succ_of_ne_zero fun h0 => by rw [h0] at hm'; omega
    have hG : s.n / g.symbols = G + 1 := by rw [hm', Nat.mul_div_cancel_left _ hs]
    have hdec := hcodec (s.srcBytes s.n) (by rwa [hlen])
    refine ⟨fun p hp hf hq => ?_, fun hq => ?_⟩
    · exact .of_endDecode_invalidByte (h s) hr (hdec.trans (decodeGroups_srcBytes_firstBad hm' hs hk hp hf hq))
    · obtain ⟨out, hout, hol, hbytes⟩ := decodeGroups_srcBytes_allGood hm' hs hk hg hm hq
      rw [hG, Nat.add_sub_cancel]
      refine .of_endDecode (h s) hr (hdec.trans hout) hol ?_ ⟨⟨rfl, rfl⟩, fun b hb => ?_⟩
      · rw [hG, Nat.succ_mul]; omega
      · rw [s.dstByte_wrote _ _ _ _ (hbytes b hb), BitVec.toNat_ofNat]

/-! ### The base32 commands -/

/-- Settles O34: both alphabets encode in groups of 5 bytes to 8 symbols of 5 bits. -/
theorem base32Encode : Obligations.Base32Encode :=
  ⟨decode_encode .b32EncStd, decode_encode .b32EncHex,
    encodeCommand_of_endEncode (g := b32Geometry) (by decide) fun _ => rfl,
    encodeCommand_of_endEncode (g := b32Geometry) (by decide) fun _ => rfl⟩

/-- A command that ends with the base32 decode of its input: the length is checked first, then the groups (R122). -/
theorem decodeCommand_of_b32Decode {i : Instr} {alph : List Byte}
    (h : ∀ s, exec i s = .next (s.endDecode s.n (b32DecLen s.n) (b32Decode alph (s.srcBytes s.n)))) :
    DecodeCommand i alph 5 8 5 [2, 4, 5, 7] (fun n => n % 8 ≠ 0) :=
  decodeCommand_of_endDecode (g := b32Geometry) (by decide) (by decide) h
    (fun _ hl => Nat.dvd_of_mod_eq_zero (not_not.1 hl)) (fun _ hl => if_pos hl) (fun _ hl => if_neg hl)

/-- Settles O35: the base32 decode with each of the two alphabets. -/
theorem base32Decode : Obligations.Base32Decode :=
  ⟨decode_encode .b32DecStd, decode_encode .b32DecHex,
    decodeCommand_of_b32Decode fun _ => rfl, decodeCommand_of_b32Decode fun _ => rfl⟩

/-- Settles O36: both lengths of a 32-bit length fit into 64 bits. -/
theorem base32Lengths : Obligations.Base32Lengths :=
  ⟨decode_encode .b32Enclen, decode_encode .b32Declen,
    lengthCommand_of_endLength (fun _ => rfl) fun _ _ => by omega,
    lengthCommand_of_endLength (fun _ => rfl) fun _ _ => by omega⟩

end Sys2Proof.Machine
end

section
/-! PROOFS of the family 42_base64.md: the base64 encodes (R141, R143, R144), decodes (R142, R145, R146) and length
commands (R147, R148), each the instance at the base64 geometry of what base32 and base64 share. -/

namespace Sys2Proof.Machine

open Sys2Proof.Claims

/-- Settles O38: both alphabets encode in groups of 3 bytes to 4 symbols of 6 bits. -/
theorem base64Encode : Obligations.Base64Encode :=
  ⟨decode_encode .b64EncStd, decode_encode .b64EncUrl,
    encodeCommand_of_endEncode (g := b64Geometry) (by decide) fun _ => rfl,
    encodeCommand_of_endEncode (g := b64Geometry) (by decide) fun _ => rfl⟩

/-- A length that base64 accepts is a whole number of groups of 4 symbols (R142). -/
theorem four_dvd_of_b64Length {n : Nat} (h : ¬ (n = 0 ∨ n % 4 ≠ 0)) : 4 ∣ n := by
  obtain ⟨-, hmod⟩ := not_or.1 h
  exact Nat.dvd_of_mod_eq_zero (not_not.1 hmod)

/-- A command that ends with the base64 decode of its input: the length is checked first, and the empty input is a bad
length; then the groups (R142). -/
theorem decodeCommand_of_b64Decode {i : Instr} {alph : List Byte}
    (h : ∀ s, exec i s = .next (s.endDecode s.n (b64DecLen s.n) (b64Decode alph (s.srcBytes s.n)))) :
    DecodeCommand i alph 3 4 6 [2, 3] (fun n => n = 0 ∨ n % 4 ≠ 0) :=
  decodeCommand_of_endDecode (g := b64Geometry) (by decide) (by decide) h
    (fun _ => four_dvd_of_b64Length) (fun _ hl => if_pos hl) (fun _ hl => if_neg hl)

/-- Settles O39: the base64 decode with each of the two alphabets. -/
theorem base64Decode : Obligations.Base64Decode :=
  ⟨decode_encode .b64DecStd, decode_encode .b64DecUrl,
    decodeCommand_of_b64Decode fun _ => rfl, decodeCommand_of_b64Decode fun _ => rfl⟩

/-- Settles O40: both lengths of a 32-bit length fit into 64 bits. -/
theorem base64Lengths : Obligations.Base64Lengths :=
  ⟨decode_encode .b64Enclen, decode_encode .b64Declen,
    lengthCommand_of_endLength (fun _ => rfl) fun _ _ => by omega,
    lengthCommand_of_endLength (fun _ => rfl) fun _ _ => by omega⟩

end Sys2Proof.Machine
end

section
/-! PROOFS of the family 43_integer.md: the integer encodes (R163, R164, R167, R168, R171, R172) and decodes (R165, R166,
R169, R170, R173, R174). First what IntEncode and IntDecode give for any width and both orders (R160, R161), then the
common forms of R162, then the commands. -/

namespace Sys2Proof.Machine

open Sys2Proof.Claims

/-! ### Byte layout -/

/-- The byte of a value of `w` bytes that stands at `j` of its buffer (R160). -/
def ByteOrder.place : ByteOrder → Nat → Nat → Nat
  | .le, _, j => j
  | .be, w, j => w - 1 - j

/-- VAL as a word and as a number are the same (R28). -/
theorem State.val_toNat (s : State) : s.val.toNat = valNat s := by
  rw [State.val, BitVec.toNat_append, ← Nat.shiftLeft_add_eq_or_of_lt s.valLo.isLt, Nat.shiftLeft_eq, valNat]

/-- Byte `j` of an encoding is the value's byte at the order's place (R160). -/
theorem intEncode_getElem? (o : ByteOrder) (v : DWord) {w j : Nat} (hj : j < w) :
    (intEncode w o v)[j]? = some (valueByte v (o.place w j)) := by
  cases o <;> simp [intEncode, ByteOrder.place, hj]

/-- The little-endian number of a run of bytes as a sum: each byte counts 256 times the byte before it. -/
theorem leValue_map_range (f : Nat → Byte) (w : Nat) :
    leValue ((List.range w).map f) = ((List.range w).map fun j => (f j).toNat * 2 ^ (8 * j)).sum := by
  induction w generalizing f with
  | zero => rfl
  | succ w ih =>
    have hshift : ∀ j, (f (j + 1)).toNat * 2 ^ (8 * (j + 1)) = 256 * ((f (j + 1)).toNat * 2 ^ (8 * j)) :=
      fun j => by rw [Nat.mul_succ, pow_add]; ring
    rw [List.range_succ_eq_map]
    simp only [List.map_cons, List.map_map, List.sum_cons, leValue, Function.comp_def, Nat.succ_eq_add_one, hshift,
      List.sum_map_mul_left, ih fun j => f (j + 1)]
    rw [Nat.mul_zero, pow_zero, Nat.mul_one]

/-- The big-endian number of a run of bytes as a sum. -/
theorem beValue_map_range (f : Nat → Byte) (w : Nat) :
    beValue ((List.range w).map f) = ((List.range w).map fun j => (f j).toNat * 2 ^ (8 * (w - 1 - j))).sum := by
  have h := beValue_leftJustified ((List.range w).map f) w (by simp)
  rw [List.length_map, List.length_range, Nat.sub_self, Nat.mul_zero, pow_zero, Nat.mul_one] at h
  rw [h]
  congr 1
  refine List.map_congr_left fun j hj => ?_
  rw [List.getElem?_map, List.getElem?_range (List.mem_range.1 hj)]
  rfl

/-- IntDecode of the input: each byte counts at the order's place (R161). -/
theorem intDecode_srcBytes (o : ByteOrder) (s : State) (w : Nat) :
    intDecode o (s.srcBytes w) = ((List.range w).map fun j => (s.srcByte j).toNat * 2 ^ (8 * o.place w j)).sum := by
  cases o with
  | le => exact leValue_map_range s.srcByte w
  | be => exact beValue_map_range s.srcByte w

/-- At most 8 bytes make a number of at most 64 bits. -/
theorem intDecode_srcBytes_lt (o : ByteOrder) (s : State) {w : Nat} (hw : w ≤ 8) :
    intDecode o (s.srcBytes w) < 2 ^ 64 := calc
  intDecode o (s.srcBytes w) < 256 ^ w := by simpa using intDecode_lt o (s.srcBytes w)
  _ ≤ 256 ^ 8 := Nat.pow_le_pow_right (by decide) hw
  _ = 2 ^ 64 := by norm_num

/-! ### The common forms (R162) -/

section
variable {i : Instr} {s : State}

/-- A command that writes a sequence of bytes and has no error (R162). -/
theorem Succeeds.of_endCopy {out : List Byte} {len : Nat} {P : State → Prop} (h : exec i s = .next (s.endCopy out))
    (hout : out.length = len) (hlen : len < 2 ^ 32) (hP : P ((s.writeDst out).finish len)) : Succeeds i s len P := by
  subst hout
  exact .of_exec_write h rfl hlen hP

/-- A command that leaves a number of at most 64 bits in VAL and writes no byte (R162). -/
theorem Succeeds.of_endLength {v : Nat} (h : exec i s = .next (s.endLength v)) (hv : v < 2 ^ 64) :
    Succeeds i s 0 fun t => valNat t = v :=
  ⟨_, h, .finish (.writeVal s _) 0, Finished.finish _ (by decide), fun _ _ => rfl, rfl, valNat_endLength s hv⟩

end

/-- A decode of a buffer of the wrong length (R162). -/
theorem State.unpackInt_range (s : State) {w : Nat} (o : ByteOrder) (h : s.n ≠ w) :
    s.unpackInt w o = s.raise .range 0 := if_pos h

/-- A decode of a buffer of the right length (R162). -/
theorem State.unpackInt_ok (s : State) {w : Nat} (o : ByteOrder) (h : s.n = w) :
    s.unpackInt w o = s.endLength (intDecode o (s.srcBytes w)) := if_neg (not_not.2 h)

/-- A command of the common form of the encodes packs the bytes of VAL in its order. -/
theorem packCommand_of_packInt {i : Instr} {w : Nat} {o : ByteOrder} (hw : w ≤ 8)
    (h : ∀ s, exec i s = .next (s.packInt w o)) : PackCommand i w (o.place w) := by
  refine fun s => .of_endCopy (h s) (intEncode_length w o s.val) (by omega) ⟨⟨rfl, rfl⟩, fun j hj => ?_⟩
  rw [s.dstByte_wrote _ _ _ _ (intEncode_getElem? o s.val hj), valueByte_toNat, s.val_toNat]

/-- A command of the common form of the decodes unpacks the bytes of SRC in its order. -/
theorem unpackCommand_of_unpackInt {i : Instr} {w : Nat} {o : ByteOrder} (hw : w ≤ 8)
    (h : ∀ s, exec i s = .next (s.unpackInt w o)) : UnpackCommand i w (o.place w) := by
  refine fun s => ⟨fun hn => .of_exec ((h s).trans (congrArg _ (s.unpackInt_range o hn))), fun hn => ?_⟩
  rw [← intDecode_srcBytes]
  exact .of_endLength ((h s).trans (congrArg _ (s.unpackInt_ok o hn))) (intDecode_srcBytes_lt o s hw)

/-! ### The commands -/

/-- Settles O42: each encode is the common form at its width and order. -/
theorem integerEncode : Obligations.IntegerEncode :=
  ⟨decode_encode .intEnc16Le, decode_encode .intEnc16Be, decode_encode .intEnc32Le, decode_encode .intEnc32Be,
    decode_encode .intEnc64Le, decode_encode .intEnc64Be,
    packCommand_of_packInt (o := .le) (by decide) fun _ => rfl,
    packCommand_of_packInt (o := .be) (by decide) fun _ => rfl,
    packCommand_of_packInt (o := .le) (by decide) fun _ => rfl,
    packCommand_of_packInt (o := .be) (by decide) fun _ => rfl,
    packCommand_of_packInt (o := .le) (by decide) fun _ => rfl,
    packCommand_of_packInt (o := .be) (by decide) fun _ => rfl⟩

/-- Settles O43: each decode is the common form at its width and order. -/
theorem integerDecode : Obligations.IntegerDecode :=
  ⟨decode_encode .intDec16Le, decode_encode .intDec16Be, decode_encode .intDec32Le, decode_encode .intDec32Be,
    decode_encode .intDec64Le, decode_encode .intDec64Be,
    unpackCommand_of_unpackInt (o := .le) (by decide) fun _ => rfl,
    unpackCommand_of_unpackInt (o := .be) (by decide) fun _ => rfl,
    unpackCommand_of_unpackInt (o := .le) (by decide) fun _ => rfl,
    unpackCommand_of_unpackInt (o := .be) (by decide) fun _ => rfl,
    unpackCommand_of_unpackInt (o := .le) (by decide) fun _ => rfl,
    unpackCommand_of_unpackInt (o := .be) (by decide) fun _ => rfl⟩

end Sys2Proof.Machine
end

section
/-! PROOFS of the family 44_symbol_tables.md: MAP.BUILD (R191), the MAP table commands (R192 to R196) and the ALPH
commands (R197 to R201). First which symbol of an alphabet is rejected and the table a valid one gives, then the contents of
the constant tables, then the commands. -/

namespace Sys2Proof.Machine

open Sys2Proof.Claims

/-! ### The first symbol that MAP.BUILD rejects (R191) -/

/-- An alphabet passes exactly when it is distinct, without '=' and apart from the symbols seen before. -/
theorem firstBadSymbol_eq_none_iff {seen alph : List Byte} :
    firstBadSymbol seen alph = none ↔ alph.Nodup ∧ padByte ∉ alph ∧ ∀ c ∈ alph, c ∉ seen := by
  induction alph generalizing seen with
  | nil => simp [firstBadSymbol]
  | cons c cs ih =>
    rw [firstBadSymbol]
    split
    · next hbad => grind
    · next hgood => rw [ih]; grind

/-- Symbols that are not rejected count as seen for the symbols after them. -/
theorem firstBadSymbol_append {seen as : List Byte} (bs : List Byte) (h : firstBadSymbol seen as = none) :
    firstBadSymbol seen (as ++ bs) = firstBadSymbol (as.reverse ++ seen) bs := by
  induction as generalizing seen with
  | nil => rfl
  | cons a as ih =>
    rw [firstBadSymbol] at h
    split at h
    · cases h
    · next hgood =>
      rw [List.cons_append, firstBadSymbol, if_neg hgood, ih h, List.reverse_cons, List.append_assoc]
      rfl

/-- After symbols that are not rejected, one that is '=' or repeats one of them is. -/
theorem firstBadSymbol_eq_some {as : List Byte} {c : Byte} (bs : List Byte) (h : firstBadSymbol [] as = none)
    (hc : c = padByte ∨ c ∈ as) : firstBadSymbol [] (as ++ c :: bs) = some c := by
  rw [firstBadSymbol_append _ h, firstBadSymbol, if_pos (by simpa using hc)]

/-- The symbols of the input are distinct when none repeats an earlier one. -/
theorem State.srcBytes_nodup {s : State} {k : Nat} (h : ∀ p < k, ∀ q < p, s.srcByte q ≠ s.srcByte p) :
    (s.srcBytes k).Nodup := by
  rw [State.srcBytes, List.Nodup, List.pairwise_map]
  exact List.pairwise_lt_range.imp_of_mem fun _ hp hlt => h _ (List.mem_range.1 hp) _ hlt

/-- No symbol of an input is rejected when none is '=' or repeats an earlier one. -/
theorem State.firstBadSymbol_srcBytes {s : State} {k : Nat}
    (h : ∀ p < k, s.srcByte p ≠ 0x3D#8 ∧ ∀ q < p, s.srcByte q ≠ s.srcByte p) :
    firstBadSymbol [] (s.srcBytes k) = none := by
  have hpad : ∀ c ∈ s.srcBytes k, c ≠ padByte := State.forall_mem_srcBytes.2 fun p hp => (h p hp).1
  exact firstBadSymbol_eq_none_iff.2
    ⟨State.srcBytes_nodup fun p hp => (h p hp).2, fun hmem => hpad _ hmem rfl, fun _ _ => List.not_mem_nil⟩

/-! ### The table that MAP.BUILD writes (R191) -/

/-- Distinct symbols fill each its own entry and no other. -/
theorem fillMap_getElem? {alph : List Byte} (h : alph.Nodup) (v : Nat) {table : List Byte} (b : Byte)
    (hb : b.toNat < table.length) :
    (fillMap v alph table)[b.toNat]? =
      if b ∈ alph then some (BitVec.ofNat 8 (v + alph.idxOf b)) else table[b.toNat]? := by
  induction alph generalizing v table with
  | nil => rfl
  | cons c cs ih =>
    obtain ⟨hc, hcs⟩ := List.nodup_cons.1 h
    rw [fillMap, ih hcs _ (by simpa using hb)]
    by_cases hbc : c = b
    · subst hbc
      simp [hc, hb]
    · have hne : c.toNat ≠ b.toNat := fun he => hbc (BitVec.eq_of_toNat_eq he)
      rw [List.getElem?_set_ne hne, List.idxOf_cons_ne _ hbc, Nat.succ_eq_add_one, Nat.add_right_comm, Nat.add_assoc]
      simp [Ne.symm hbc]

/-- The table built from distinct symbols holds their decode map (R40). -/
theorem buildMap_getElem? {alph : List Byte} (h : alph.Nodup) (b : Byte) :
    (buildMap alph)[b.toNat]? = some (inverse alph b) := by
  have hb : b.toNat < 256 := b.isLt
  rw [buildMap, fillMap_getElem? h 0 b (by rwa [List.length_replicate]), List.getElem?_replicate, if_pos hb,
    Nat.zero_add, inverse]
  split <;> rfl

/-! ### The decode maps as ranges (R40 to R42) -/

/-- The entry for a byte in the decode map of symbols with the values from `k` on, as a number (R40). -/
def mapEntry (k : Nat) (alph : List Byte) (b : Byte) : Nat := if b ∈ alph then k + alph.idxOf b else 0xFF

/-- Every value of at most 256 symbols fits into its entry. -/
theorem inverse_toNat {alph : List Byte} (h : alph.length ≤ 256) (b : Byte) :
    (inverse alph b).toNat = mapEntry 0 alph b := by
  rw [inverse, mapEntry]
  split
  · next hb =>
    have hlt : alph.idxOf b < 2 ^ 8 := (List.idxOf_lt_length_of_mem hb).trans_le h
    rw [BitVec.toNat_ofNat, Nat.mod_eq_of_lt hlt, Nat.zero_add]
  · rfl

theorem mapEntry_append (k : Nat) (as bs : List Byte) (b : Byte) :
    mapEntry k (as ++ bs) b = if b ∈ as then k + as.idxOf b else mapEntry (k + as.length) bs b := by
  unfold mapEntry
  by_cases hb : b ∈ as
  · simp [hb, List.idxOf_append_of_mem]
  · simp [hb, List.idxOf_append_of_notMem, Nat.add_assoc]

theorem mapEntry_cons (k : Nat) (c : Byte) (cs : List Byte) (b : Byte) :
    mapEntry k (c :: cs) b = if b.toNat = c.toNat then k else mapEntry (k + 1) cs b := by
  rw [← List.singleton_append, mapEntry_append]
  by_cases hb : b = c
  · simp [hb]
  · simp [hb, mt BitVec.eq_of_toNat_eq hb]

theorem asciiRun_code_toNat (c : Char) {n i : Nat} (hn : c.toNat + n ≤ 256) (hi : i < n) :
    (BitVec.ofNat 8 (c.toNat + i)).toNat = c.toNat + i := by
  rw [BitVec.toNat_ofNat, Nat.mod_eq_of_lt (by omega)]

theorem mem_asciiRun {c : Char} {n : Nat} (hn : c.toNat + n ≤ 256) {b : Byte} :
    b ∈ asciiRun c n ↔ c.toNat ≤ b.toNat ∧ b.toNat < c.toNat + n := by
  rw [asciiRun, List.mem_map]
  constructor
  · rintro ⟨i, hi, rfl⟩
    rw [List.mem_range] at hi
    rw [asciiRun_code_toNat c hn hi]
    omega
  · rintro ⟨hlo, hhi⟩
    refine ⟨b.toNat - c.toNat, List.mem_range.2 (by omega), ?_⟩
    rw [Nat.add_sub_cancel' hlo, BitVec.ofNat_toNat, BitVec.setWidth_eq]

theorem asciiRun_nodup {c : Char} {n : Nat} (hn : c.toNat + n ≤ 256) : (asciiRun c n).Nodup :=
  List.nodup_range.map_on fun i hi j hj h => by
    have h := congrArg BitVec.toNat h
    rw [asciiRun_code_toNat c hn (List.mem_range.1 hi), asciiRun_code_toNat c hn (List.mem_range.1 hj)] at h
    omega

theorem idxOf_asciiRun {c : Char} {n : Nat} (hn : c.toNat + n ≤ 256) {b : Byte} (hb : b ∈ asciiRun c n) :
    (asciiRun c n).idxOf b = b.toNat - c.toNat := by
  obtain ⟨hlo, hhi⟩ := (mem_asciiRun hn).1 hb
  have hlt : b.toNat - c.toNat < (asciiRun c n).length := by simp [asciiRun]; omega
  have hget : (asciiRun c n)[b.toNat - c.toNat] = b := by simp [asciiRun, Nat.add_sub_cancel' hlo]
  simpa only [hget] using (asciiRun_nodup hn).idxOf_getElem _ hlt

/-- A run of `n` symbols from `lo` to `hi` at the front takes the first `n` values; the other bytes fall to the rest. -/
theorem mapEntry_run {c : Char} {n : Nat} (lo hi : Nat) (hlo : c.toNat = lo) (hhi : lo + n = hi + 1) (hle : hi < 256)
    (k : Nat) (rest : List Byte) (b : Byte) :
    mapEntry k (asciiRun c n ++ rest) b =
      if lo ≤ b.toNat ∧ b.toNat ≤ hi then b.toNat - lo + k else mapEntry (k + n) rest b := by
  subst hlo
  have hn : c.toNat + n ≤ 256 := by omega
  have hmem : b ∈ asciiRun c n ↔ c.toNat ≤ b.toNat ∧ b.toNat ≤ hi := by
    rw [mem_asciiRun hn, hhi, Nat.lt_succ_iff]
  have hlen : (asciiRun c n).length = n := by simp [asciiRun]
  rw [mapEntry_append, hlen]
  by_cases hb : b ∈ asciiRun c n
  · rw [if_pos hb, if_pos (hmem.1 hb), idxOf_asciiRun hn hb, Nat.add_comm]
  · rw [if_neg hb, if_neg (mt hmem.2 hb)]

/-- The hexadecimal map, both cases (R42). -/
theorem mapIs_hexDmap : MapIs hexDmap hexMapCode := by
  intro b
  unfold hexDmap hexMapCode
  split_ifs
  · rw [BitVec.toNat_ofNat]; omega
  · rw [BitVec.toNat_ofNat]; omega
  · rw [BitVec.toNat_ofNat]; omega
  · rfl

theorem mapIs_b32Std : MapIs (inverse b32StdAlph) b32StdMapCode := by
  intro b
  rw [inverse_toNat (by decide), b32StdAlph, ← List.append_nil (asciiRun '2' 6),
    mapEntry_run 0x41 0x5A rfl rfl (by decide), mapEntry_run 0x32 0x37 rfl rfl (by decide)]
  rfl

theorem mapIs_b32Hex : MapIs (inverse b32HexAlph) b32HexMapCode := by
  intro b
  rw [inverse_toNat (by decide), b32HexAlph, ← List.append_nil (asciiRun 'A' 22),
    mapEntry_run 0x30 0x39 rfl rfl (by decide), mapEntry_run 0x41 0x56 rfl rfl (by decide)]
  rfl

/-- The base64 maps differ in the symbols for 62 and 63 alone (R41). -/
theorem mapIs_b64 (c62 c63 : Byte) :
    MapIs (inverse (asciiRun 'A' 26 ++ asciiRun 'a' 26 ++ asciiRun '0' 10 ++ [c62, c63]))
      (b64MapCode c62.toNat c63.toNat) := by
  intro b
  rw [inverse_toNat (by simp [asciiRun]), List.append_assoc, List.append_assoc,
    mapEntry_run 0x41 0x5A rfl rfl (by decide), mapEntry_run 0x61 0x7A rfl rfl (by decide),
    mapEntry_run 0x30 0x39 rfl rfl (by decide), mapEntry_cons, mapEntry_cons]
  rfl

/-! ### The alphabets as ranges (R34 to R38) -/

theorem alphabetIs_hex : AlphabetIs hexAlph 16 hexAlphCode := ⟨rfl, by decide⟩

theorem alphabetIs_b32Std : AlphabetIs b32StdAlph 32 b32StdAlphCode := ⟨rfl, by decide⟩

theorem alphabetIs_b32Hex : AlphabetIs b32HexAlph 32 b32HexAlphCode := ⟨rfl, by decide⟩

theorem alphabetIs_b64Std : AlphabetIs b64StdAlph 64 (b64AlphCode 0x2B 0x2F) := ⟨rfl, by decide⟩

theorem alphabetIs_b64Url : AlphabetIs b64UrlAlph 64 (b64AlphCode 0x2D 0x5F) := ⟨rfl, by decide⟩

/-! ### MAP.BUILD -/

section
variable {s : State}

/-- MAP.BUILD turns away every number of symbols but 16, 32 and 64 (R191). -/
theorem exec_mapBuild_range (hn : ¬ (s.n = 16 ∨ s.n = 32 ∨ s.n = 64)) :
    exec .mapBuild s = .next (s.raise .range 0) := by
  have hn : s.n ≠ 16 ∧ s.n ≠ 32 ∧ s.n ≠ 64 := by simpa only [not_or] using hn
  exact congrArg _ (if_pos hn)

section
variable (hn : s.n = 16 ∨ s.n = 32 ∨ s.n = 64)
include hn

/-- MAP.BUILD reports the first symbol that is '=' or repeats an earlier one (R191). -/
theorem exec_mapBuild_alphabet {c : Byte} (h : firstBadSymbol [] (s.srcBytes s.n) = some c) :
    exec .mapBuild s = .next (s.raise .alphabet c) := by
  refine congrArg _ ((if_neg (by omega)).trans ?_)
  rw [h]

/-- MAP.BUILD writes the table of an alphabet without such a symbol (R191). -/
theorem exec_mapBuild_ok (h : firstBadSymbol [] (s.srcBytes s.n) = none) :
    exec .mapBuild s = .next (s.endCopy (buildMap (s.srcBytes s.n))) := by
  refine congrArg _ ((if_neg (by omega)).trans ?_)
  rw [h]

end

end

/-- Settles O45: the symbols before the reported one are not rejected, and the table of a valid alphabet is its decode
map, whose law is that of O49. -/
theorem mapBuild : Obligations.MapBuild := by
  refine ⟨decode_encode .mapBuild, fun s => ⟨fun hn => .of_exec (exec_mapBuild_range hn), fun hn =>
    ⟨fun p hp hbad hgood => ?bad, fun hgood => ?good⟩⟩⟩
  case bad =>
    obtain ⟨rest, hsplit⟩ := s.srcBytes_split hp
    have hmem : s.srcByte p = padByte ∨ s.srcByte p ∈ s.srcBytes p := by simpa [State.srcBytes, padByte] using hbad
    refine .of_exec_raise (exec_mapBuild_alphabet hn ?_)
    rw [hsplit]
    exact firstBadSymbol_eq_some rest (State.firstBadSymbol_srcBytes hgood) hmem
  case good =>
    have hnone := State.firstBadSymbol_srcBytes hgood
    have hnodup : (s.srcBytes s.n).Nodup := (firstBadSymbol_eq_none_iff.1 hnone).1
    have hentry : ∀ b : Byte, ((s.writeDst (buildMap (s.srcBytes s.n))).finish 256).dstByte b.toNat =
        inverse (s.srcBytes s.n) b := fun b => s.dstByte_wrote _ _ _ _ (buildMap_getElem? hnodup b)
    refine .of_endCopy (exec_mapBuild_ok hn hnone) (buildMap_length _) (by decide)
      ⟨⟨rfl, rfl⟩, fun v hv => ?_, fun b hb habsent => ?_⟩
    · have hlen : v < (s.srcBytes s.n).length := by simpa using hv
      have hget : (s.srcBytes s.n)[v] = s.srcByte v := by simp [State.srcBytes]
      rw [hentry, ← hget, inverse_getElem_toNat hnodup hlen]
    · obtain ⟨c, rfl⟩ : ∃ c : Byte, c.toNat = b := ⟨BitVec.ofNat 8 b, Nat.mod_eq_of_lt hb⟩
      have hne : ∀ a ∈ s.srcBytes s.n, a ≠ c :=
        State.forall_mem_srcBytes.2 fun v hv he => habsent v hv (congrArg _ he)
      rw [hentry]
      exact inverse_of_not_mem fun hmem => hne c hmem rfl

/-! ### The commands that copy a table (R192 to R201) -/

/-- A command that copies a decode map. -/
theorem copyCommand_of_mapIs {i : Instr} {dmap : Byte → Byte} {f : Nat → Nat} (hf : MapIs dmap f)
    (h : ∀ s, exec i s = .next (s.endCopy (mapTable dmap))) : CopyCommand i 256 f := by
  refine fun s => .of_endCopy (h s) (mapTable_length dmap) (by decide) ⟨⟨rfl, rfl⟩, fun b hb => ?_⟩
  rw [s.dstByte_wrote _ _ _ _ (mapTable_getElem? dmap b hb), hf, BitVec.toNat_ofNat, Nat.mod_eq_of_lt hb]

/-- A command that copies an alphabet. -/
theorem copyCommand_of_alphabetIs {i : Instr} {alph : List Byte} {n : Nat} {f : Nat → Nat}
    (hf : AlphabetIs alph n f) (hn : n < 2 ^ 32) (h : ∀ s, exec i s = .next (s.endCopy alph)) :
    CopyCommand i n f := by
  obtain ⟨hlen, hf⟩ := hf
  refine fun s => .of_endCopy (h s) hlen hn ⟨⟨rfl, rfl⟩, fun v hv => ?_⟩
  have hsym : alph[v]? = some (symbol alph v) := by
    have hv : v < alph.length := by omega
    simp [symbol, hv]
  rw [s.dstByte_wrote _ _ _ _ hsym, hf v hv]

/-- Settles O47: each command copies its decode map, whose entries are the ranges of its alphabet. -/
theorem mapTables : Obligations.MapTables :=
  ⟨decode_encode .mapHex, decode_encode .mapB32Std, decode_encode .mapB32Hex, decode_encode .mapB64Std,
    decode_encode .mapB64Url,
    copyCommand_of_mapIs mapIs_hexDmap fun _ => rfl, copyCommand_of_mapIs mapIs_b32Std fun _ => rfl,
    copyCommand_of_mapIs mapIs_b32Hex fun _ => rfl,
    copyCommand_of_mapIs (mapIs_b64 (ascii '+') (ascii '/')) fun _ => rfl,
    copyCommand_of_mapIs (mapIs_b64 (ascii '-') (ascii '_')) fun _ => rfl⟩

/-- Settles O48: each command copies its alphabet. -/
theorem alphabetTables : Obligations.AlphabetTables :=
  ⟨decode_encode .alphHex, decode_encode .alphB32Std, decode_encode .alphB32Hex, decode_encode .alphB64Std,
    decode_encode .alphB64Url,
    copyCommand_of_alphabetIs alphabetIs_hex (by decide) fun _ => rfl,
    copyCommand_of_alphabetIs alphabetIs_b32Std (by decide) fun _ => rfl,
    copyCommand_of_alphabetIs alphabetIs_b32Hex (by decide) fun _ => rfl,
    copyCommand_of_alphabetIs alphabetIs_b64Std (by decide) fun _ => rfl,
    copyCommand_of_alphabetIs alphabetIs_b64Url (by decide) fun _ => rfl⟩

end Sys2Proof.Machine
end

section
/-! PROOFS of the family 60_exceptions.md: the CMD write of an illegal word (R215) and the RANGE conditions (R216). -/

namespace Sys2Proof.Machine

open Sys2Proof.Claims

/-! ### Illegal commands -/

/-- A CMD write runs its word, in a state whose answer is an acknowledgement (R54, R210). -/
theorem step_cmdWrite {s : State} {d : DWord} {rest : List HostEvent} (h : s.pending = cmdWrite d :: rest) :
    step s = runCommand (d.setWidth 32) { s with pending := rest, reply := .ack } :=
  (step_write h (accessLegal_offset .cmd)).trans (busWrite_cmd _ d)

/-- Settles O5: a CMD write runs its word, and the run of an illegal word changes CMD, STATUS and DST_LEN alone. -/
theorem illegalCommandStep : Obligations.IllegalCommandStep := fun _ _ _ _ hp hd =>
  ⟨_, (step_cmdWrite hp).trans (runCommand_illegal hd _), rfl, rfl, rfl, fun _ => rfl, fun _ => rfl, rfl, ⟨rfl, rfl⟩,
    rfl, rfl, rfl⟩

/-! ### STATUS.CODE at the ends of a command -/

/-- After an error CODE is the error's (R212). -/
@[simp] theorem State.codeOf_raise (s : State) (c : StatusCode) (b : Byte) : codeOf (s.raise c b) = c.bits.toNat :=
  statusWord_code c b

/-- After a success CODE is 0 (R211). -/
@[simp] theorem State.codeOf_finish (s : State) (len : Nat) : codeOf (s.finish len) = 0 := statusWord_code .ok 0

/-! ### RANGE -/

/-- Raising RANGE sets STATUS and DST_LEN, no more (R212, R216). -/
theorem State.raise_range (s : State) : s.raise .range 0 = { s with status := 0x80000005#32, dstLen := 0#32 } := rfl

section
variable {i : Instr} {s t : State} (e : EndsAs i s t)
include e

/-- Under its RANGE condition a command can only raise RANGE (R216). -/
theorem EndsAs.eq_raise_range (hr : rangeCondition s i) : t = s.raise .range 0 := by
  cases e with
  | range => rfl
  | invalidByte h | oddLength h | invalidLength h | alphabet h | wrote h | value h => exact absurd hr h

/-- Without its RANGE condition a command ends with any code but RANGE (R216). -/
theorem EndsAs.codeOf_ne_range (hr : ¬ rangeCondition s i) : codeOf t ≠ 5 := by
  cases e with
  | range h => exact absurd h hr
  | invalidByte | oddLength | invalidLength | alphabet => rw [State.codeOf_raise]; decide
  | wrote | value => rw [State.codeOf_finish]; decide

end

/-- Settles O23: of the ways a command can end, RANGE is the one with the condition and the one with the code. -/
theorem rangeExactly : Obligations.RangeExactly := by
  intro i s
  obtain ⟨t, ht, e⟩ := exec_ends i s
  refine ⟨fun hr => ?_, fun hr => ⟨t, ht, e.codeOf_ne_range hr⟩⟩
  rw [ht, e.eq_raise_range hr, State.raise_range]

end Sys2Proof.Machine
end

section
/-! PROOFS of the constant tables (10_state.md section 5) and of what the table commands make of them
(44_symbol_tables.md R202). -/

namespace Sys2Proof.Machine

open Sys2Proof.Claims

/-! ### The contents of the tables (R34 to R42) -/

theorem tablesHold : TablesHold :=
  ⟨alphabetIs_hex, alphabetIs_b32Std, alphabetIs_b32Hex, alphabetIs_b64Std, alphabetIs_b64Url,
    mapIs_hexDmap, mapIs_b32Std, mapIs_b32Hex, mapIs_b64 (ascii '+') (ascii '/'), mapIs_b64 (ascii '-') (ascii '_')⟩

/-- An alphabet whose codes, as a function of the value, are distinct and never that of `=`. -/
theorem nodup_noPad_of_alphabetIs {alph : List Byte} {n : Nat} {f : Nat → Nat} (h : AlphabetIs alph n f)
    (hf : ∀ v < n, ∀ w < n, f v = f w → v = w) (hpad : ∀ v < n, f v ≠ 0x3D) : alph.Nodup ∧ padByte ∉ alph := by
  obtain ⟨hlen, hcode⟩ := h
  have hget : ∀ v (hv : v < alph.length), alph[v].toNat = f v := fun v hv => by
    rw [← hcode v (hlen ▸ hv), symbol, List.getD_eq_getElem _ _ hv]
  refine ⟨List.nodup_iff_injective_get.2 fun v w hvw => ?_, fun hmem => ?_⟩
  · refine Fin.ext (hf v (hlen ▸ v.isLt) w (hlen ▸ w.isLt) ?_)
    rw [← hget v v.isLt, ← hget w w.isLt]
    exact congrArg _ hvw
  · obtain ⟨v, hv, he⟩ := List.getElem_of_mem hmem
    exact hpad v (hlen ▸ hv) (by rw [← hget v hv, he]; rfl)

theorem hexAlph_nodup_noPad : hexAlph.Nodup ∧ padByte ∉ hexAlph :=
  nodup_noPad_of_alphabetIs alphabetIs_hex (fun v _ w _ => by unfold hexAlphCode; split_ifs <;> omega)
    (fun v _ => by unfold hexAlphCode; split_ifs <;> omega)

theorem b32StdAlph_nodup_noPad : b32StdAlph.Nodup ∧ padByte ∉ b32StdAlph :=
  nodup_noPad_of_alphabetIs alphabetIs_b32Std (fun v _ w _ => by unfold b32StdAlphCode; split_ifs <;> omega)
    (fun v _ => by unfold b32StdAlphCode; split_ifs <;> omega)

theorem b32HexAlph_nodup_noPad : b32HexAlph.Nodup ∧ padByte ∉ b32HexAlph :=
  nodup_noPad_of_alphabetIs alphabetIs_b32Hex (fun v _ w _ => by unfold b32HexAlphCode; split_ifs <;> omega)
    (fun v _ => by unfold b32HexAlphCode; split_ifs <;> omega)

theorem b64StdAlph_nodup_noPad : b64StdAlph.Nodup ∧ padByte ∉ b64StdAlph :=
  nodup_noPad_of_alphabetIs alphabetIs_b64Std (fun v _ w _ => by unfold b64AlphCode; split_ifs <;> omega)
    (fun v _ => by unfold b64AlphCode; split_ifs <;> omega)

theorem b64UrlAlph_nodup_noPad : b64UrlAlph.Nodup ∧ padByte ∉ b64UrlAlph :=
  nodup_noPad_of_alphabetIs alphabetIs_b64Url (fun v _ w _ => by unfold b64AlphCode; split_ifs <;> omega)
    (fun v _ => by unfold b64AlphCode; split_ifs <;> omega)

/-- Settles O46: the contents as ranges, and codes that are distinct and not that of `=`. -/
theorem constantTables : Obligations.ConstantTables := by
  refine ⟨tablesHold, fun alph halph => ?_⟩
  simp only [List.mem_cons, List.not_mem_nil, or_false] at halph
  obtain rfl | rfl | rfl | rfl | rfl := halph
  · exact hexAlph_nodup_noPad
  · exact b32StdAlph_nodup_noPad
  · exact b32HexAlph_nodup_noPad
  · exact b64StdAlph_nodup_noPad
  · exact b64UrlAlph_nodup_noPad

/-- Settles O1: each word, written out in binary, is its command's word of the table (R73). -/
theorem tableWordsDecode : Obligations.TableWordsDecode :=
  ⟨decode_encode .hexDec, decode_encode .b32EncHex, decode_encode .b64DecUrl, decode_encode .intDec64Be,
    decode_encode .mapBuild, decode_encode .alphB32Hex⟩

/-! ### MAP.BUILD of a shipped alphabet (R202) -/

/-- A byte of a table that a command has copied to DST. -/
theorem State.dstByte_endCopy (s : State) {out : List Byte} {b : Nat} {c : Byte} (h : out[b]? = some c) :
    (s.endCopy out).dstByte b = c := s.dstByte_wrote _ _ _ _ h

theorem State.finished_endCopy (s : State) {out : List Byte} {len : Nat} (h : out.length = len) (hlen : len < 2 ^ 32) :
    Finished len (s.endCopy out) := by
  subst h
  exact .finish _ hlen

/-- The input of a state into which the output of another state's command has been copied. -/
theorem State.srcBytes_of_dstByte_endCopy {s u : State} {out : List Byte}
    (hb : ∀ j < out.length, u.srcByte j = (s.endCopy out).dstByte j) : u.srcBytes out.length = out := by
  refine List.ext_getElem (by simp) fun j _ hj => ?_
  rw [State.srcBytes_getElem, hb j hj, s.dstByte_endCopy (List.getElem?_eq_getElem hj)]

/-- As before, with the length of the output copied to SRC_LEN. -/
theorem State.srcBytes_of_endCopy {s u : State} {out : List Byte} (hlen : out.length < 2 ^ 32)
    (hn : u.srcLen = (s.endCopy out).dstLen)
    (hb : ∀ j < (s.endCopy out).dstLen.toNat, u.srcByte j = (s.endCopy out).dstByte j) :
    u.n = out.length ∧ u.srcBytes u.n = out := by
  obtain ⟨-, hdst⟩ := s.finished_endCopy rfl hlen
  have hun : u.n = out.length := by rw [State.n, hn, hdst]
  rw [hdst] at hb
  exact ⟨hun, hun ▸ State.srcBytes_of_dstByte_endCopy hb⟩

/-- MAP.BUILD of an alphabet, read by an ALPH command and copied back, next to a MAP command: both finish with 256
bytes, in the relation in which the inverse of the alphabet stands to the constant map. -/
theorem mapBuild_of_alphabet (P : Nat → Byte → Byte → Prop) {ia im : Instr} {alph : List Byte} {dmap : Byte → Byte}
    (hlen : alph.length = 16 ∨ alph.length = 32 ∨ alph.length = 64) (halph : alph.Nodup ∧ padByte ∉ alph)
    (ha : ∀ s, exec ia s = .next (s.endCopy alph)) (hm : ∀ x, exec im x = .next (x.endCopy (mapTable dmap)))
    (hP : ∀ b : Byte, P b.toNat (inverse alph b) (dmap b)) (s u x : State) :
    ∃ t, exec ia s = .next t ∧ (u.srcLen = t.dstLen → (∀ j < t.dstLen.toNat, u.srcByte j = t.dstByte j) →
      ∃ v y, exec .mapBuild u = .next v ∧ exec im x = .next y ∧ Finished 256 v ∧ Finished 256 y ∧
        ∀ b < 256, P b (v.dstByte b) (y.dstByte b)) := by
  obtain ⟨hnodup, hpad⟩ := halph
  refine ⟨_, ha s, fun hn hb => ?_⟩
  obtain ⟨hun, hbytes⟩ := State.srcBytes_of_endCopy (by omega) hn hb
  have hgood : firstBadSymbol [] (u.srcBytes u.n) = none := by
    rw [hbytes]
    exact firstBadSymbol_eq_none_iff.2 ⟨hnodup, hpad, fun _ _ => List.not_mem_nil⟩
  have hbuild := exec_mapBuild_ok (hun ▸ hlen) hgood
  rw [hbytes] at hbuild
  refine ⟨_, _, hbuild, hm x, u.finished_endCopy (by simp) (by decide), x.finished_endCopy (by simp) (by decide),
    fun b hlt => ?_⟩
  have hb8 : (BitVec.ofNat 8 b).toNat = b := Nat.mod_eq_of_lt hlt
  have hentry := buildMap_getElem? hnodup (BitVec.ofNat 8 b)
  have hPb := hP (BitVec.ofNat 8 b)
  rw [hb8] at hentry hPb
  rwa [u.dstByte_endCopy hentry, x.dstByte_endCopy (mapTable_getElem? dmap b hlt)]

/-- The inverse of the hexadecimal alphabet and HEX_DMAP differ at the upper-case digits, and nowhere else (R42). -/
theorem inverse_hexAlph_ne_hexDmap_iff (b : Byte) :
    inverse hexAlph b ≠ hexDmap b ↔ 0x41 ≤ b.toNat ∧ b.toNat ≤ 0x46 := by
  have hinv : (inverse hexAlph b).toNat = if 0x30 ≤ b.toNat ∧ b.toNat ≤ 0x39 then b.toNat - 0x30 + 0
      else if 0x61 ≤ b.toNat ∧ b.toNat ≤ 0x66 then b.toNat - 0x61 + 10 else 0xFF := by
    rw [inverse_toNat (by decide), hexAlph, ← List.append_nil (asciiRun 'a' 6),
      mapEntry_run 0x30 0x39 rfl rfl (by decide), mapEntry_run 0x61 0x66 rfl rfl (by decide)]
    rfl
  rw [ne_eq, ← BitVec.toNat_inj, hinv, mapIs_hexDmap b, hexMapCode]
  split_ifs <;> omega

/-- Settles O50: the table of a shipped alphabet holds its inverse, which is the variant's decode map but for hex. -/
theorem mapCrossCheck : Obligations.MapCrossCheck := by
  refine ⟨fun p hp => ?same, ?hex⟩
  case same =>
    simp only [List.mem_cons, List.not_mem_nil, or_false] at hp
    obtain rfl | rfl | rfl | rfl := hp
    · exact mapBuild_of_alphabet (fun _ => Eq) (.inr (.inl rfl)) b32StdAlph_nodup_noPad (fun _ => rfl) (fun _ => rfl)
        fun _ => rfl
    · exact mapBuild_of_alphabet (fun _ => Eq) (.inr (.inl rfl)) b32HexAlph_nodup_noPad (fun _ => rfl) (fun _ => rfl)
        fun _ => rfl
    · exact mapBuild_of_alphabet (fun _ => Eq) (.inr (.inr rfl)) b64StdAlph_nodup_noPad (fun _ => rfl) (fun _ => rfl)
        fun _ => rfl
    · exact mapBuild_of_alphabet (fun _ => Eq) (.inr (.inr rfl)) b64UrlAlph_nodup_noPad (fun _ => rfl) (fun _ => rfl)
        fun _ => rfl
  case hex =>
    exact mapBuild_of_alphabet (fun b c d => c ≠ d ↔ 0x41 ≤ b ∧ b ≤ 0x46) (.inl rfl) hexAlph_nodup_noPad (fun _ => rfl)
      (fun _ => rfl) inverse_hexAlph_ne_hexDmap_iff

end Sys2Proof.Machine
end

section
/-! PROOFS about the host's steps: the invariant of the block, what reads answer (20_memory.md R51, R53, R55), that a
legal host is never stopped (60_exceptions.md R218), STATUS.DONE, reset, and the command a CMD write runs (R210). -/

namespace Sys2Proof.Machine

open Sys2Proof.Claims

/-! ### The invariant -/

theorem BufferOk.nil (cap : Nat) : BufferOk [] cap := ⟨.nil, fun _ hc => absurd hc List.not_mem_nil⟩

theorem BufferOk.write {m : Memory} {cap i : Nat} (h : BufferOk m cap) (hi : i < cap) (b : Byte) :
    BufferOk (m.write i b) cap := by
  obtain ⟨hwf, hcap⟩ := h
  refine ⟨Memory.wf_write hwf i b, fun c hc => ?_⟩
  obtain rfl | hc := Memory.mem_write hc
  · exact hi
  · exact hcap c hc

theorem BufferOk.writePrefix {m : Memory} {cap : Nat} {out : List Byte} (h : BufferOk m cap) (hout : out.length ≤ cap) :
    BufferOk (m.writePrefix out) cap := by
  obtain ⟨hwf, hcap⟩ := h
  refine ⟨Memory.wf_writePrefix hwf out, fun c hc => ?_⟩
  obtain hc | hc := Memory.mem_writePrefix hc
  · exact hc.trans_le hout
  · exact hcap c hc

section
variable {s : State} (h : Invariant s)
include h

theorem Invariant.writeSrc {i : Nat} (hi : i < s.srcCapr.toNat) (b : Byte) : Invariant (s.writeSrc i b) := by
  obtain ⟨hcaps, hstatus, hlen, hsrc, hdst⟩ := h
  exact ⟨hcaps, hstatus, hlen, hsrc.write hi b, hdst⟩

theorem Invariant.writeDst {out : List Byte} (hout : out.length ≤ s.dstCapr.toNat) : Invariant (s.writeDst out) := by
  obtain ⟨hcaps, hstatus, hlen, hsrc, hdst⟩ := h
  exact ⟨hcaps, hstatus, hlen, hsrc, hdst.writePrefix hout⟩

theorem Invariant.drawDst {d : Nat} (hd : d ≤ s.dstCapr.toNat) : Invariant (s.drawDst d) :=
  h.writeDst (by simpa using hd)

theorem Invariant.writeReg (r : Reg) (w : Word) : Invariant (s.writeReg r w) := by cases r <;> exact h

theorem Invariant.finish {len : Nat} (hlen : len ≤ s.dstCapr.toNat) : Invariant (s.finish len) := by
  obtain ⟨hcaps, -, -, hsrc, hdst⟩ := h
  have hle : (BitVec.ofNat 32 len).toNat ≤ len := (BitVec.toNat_ofNat len 32).trans_le (Nat.mod_le _ _)
  exact ⟨hcaps, statusWord_legal .ok 0 fun hb => absurd rfl hb, hle.trans hlen, hsrc, hdst⟩

theorem Invariant.raise {c : StatusCode} {b : Byte} (hb : b ≠ 0 → c = .invalidByte ∨ c = .alphabet) :
    Invariant (s.raise c b) := by
  obtain ⟨hcaps, -, -, hsrc, hdst⟩ := h
  exact ⟨hcaps, statusWord_legal c b hb, Nat.zero_le _, hsrc, hdst⟩

theorem Invariant.hostReset : Invariant s.hostReset := by
  obtain ⟨hcaps, -⟩ := h
  exact ⟨hcaps, .inl rfl, Nat.zero_le _, .nil _, .nil _⟩

/-- Every end of a command keeps the invariant: what it writes or draws fits DST_BUF. -/
theorem Invariant.endsAs {i : Instr} {t : State} (e : EndsAs i s t) : Invariant t := by
  have noByte : ∀ {c : StatusCode}, (0 : Byte) ≠ 0 → c = .invalidByte ∨ c = .alphabet := fun hb => absurd rfl hb
  have hcaps := h.1
  cases e with
  | range => exact h.raise noByte
  | invalidByte _ b _ hb => exact (h.drawDst hb).raise fun _ => .inl rfl
  | oddLength _ _ hb => exact (h.drawDst hb).raise noByte
  | invalidLength => exact h.raise noByte
  | alphabet => exact h.raise fun _ => .inr rfl
  | wrote _ out len hl hc =>
    have hlen : len ≤ s.dstCapr.toNat := hc.elim id fun hc => by
      obtain ⟨-, -, hmin, -⟩ := hcaps
      exact hc.trans hmin
    exact (h.writeDst (hl.trans_le hlen)).finish hlen
  | value => exact Invariant.finish (s := s.writeVal _) h (Nat.zero_le _)

/-- A run of a command word, legal or not, keeps the invariant. -/
theorem Invariant.runCommand {w : Word} {t : State} (ht : runCommand w s = .next t) : Invariant t := by
  have hcmd : Invariant { s with cmd := w } := h
  obtain ⟨t', ht', ⟨i, -, e⟩ | ⟨-, rfl⟩⟩ := runCommand_ends w s <;> cases ht.symm.trans ht'
  · exact hcmd.endsAs e
  · exact hcmd.raise fun hb => absurd rfl hb

/-- A legal write keeps the invariant: a byte of SRC_BUF is written below the capacity. -/
theorem Invariant.busWrite {a : Word} {d : DWord} {t : State} (ht : busWrite a d s = .next t) : Invariant t := by
  obtain ⟨t', ht', hcase⟩ := busWrite_cases a d s
  cases ht.symm.trans ht'
  obtain ⟨-, hrun⟩ | ⟨r, -, -, rfl⟩ | ⟨i, hp, rfl⟩ | rfl := hcase
  · exact h.runCommand hrun
  · exact h.writeReg r _
  · exact h.writeSrc (State.placeAt_src_lt hp) _
  · exact h

end

/-- Settles O16, by the cases of a step: a read, a write with its command, or a reset. -/
theorem stepKeepsInv : Obligations.StepKeepsInv := by
  intro s t h ht
  obtain ⟨-, hs⟩ | ⟨e, rest, -, ⟨-, hs⟩ | ⟨-, u, hs, hu⟩⟩ := step_cases s <;> cases ht.symm.trans hs
  · exact h
  · obtain ⟨w, a, -, rfl⟩ | ⟨w, a, d, -, -, hw⟩ | ⟨-, rfl⟩ := hu
    · exact h
    · exact Invariant.busWrite (s := { s with pending := rest, reply := .ack }) h hw
    · exact Invariant.hostReset (s := { s with pending := rest }) h

/-- The parameters are within the bounds of R7. -/
theorem config_caps_bounds :
    64 ≤ Config.srcCap ∧ Config.srcCap ≤ 2 ^ 30 ∧ 256 ≤ Config.dstCap ∧ Config.dstCap ≤ 2 ^ 30 := by
  unfold Config.srcCap Config.dstCap
  omega

/-- Settles O17: the parameters are allowed, STATUS and DST_LEN are 0, and no byte is written. -/
theorem resetHasInv : Obligations.ResetHasInv := by
  refine ⟨?_, .inl rfl, Nat.zero_le _, .nil _, .nil _⟩
  rw [CapsOk, reset_srcCapr_toNat, reset_dstCapr_toNat]
  exact config_caps_bounds

/-! ### Reads -/

/-- In the register window only the eight offsets hold a register (R51). -/
theorem State.placeAt_window_reserved (s : State) {a : Word} (hlo : 0x20 ≤ a.toNat) (hhi : a.toNat ≤ 0xFFF) :
    s.placeAt a = .reserved := by
  rw [s.placeAt_window a (Nat.lt_succ_of_le hhi), regAt_none _ (.inl hlo)]

/-- Settles O7: each offset holds its register, and from the ninth on the window is reserved. -/
theorem registerWindowReads : Obligations.RegisterWindowReads := by
  intro s a rest h hwin halign
  have hreg : ∀ r : Reg, a = BitVec.ofNat 32 r.offset → s.busRead a = .word (s.readReg r) :=
    fun r ha => State.busRead_reg (ha ▸ s.placeAt_offset r)
  rw [step_read h ((accessLegal_iff _ _).2 (.inl ⟨Nat.lt_succ_of_le hwin, rfl, halign⟩))]
  congr 2
  split_ifs with h0 h1 h2 h3 h4 h5 h6 h7
  · exact hreg .cmd h0
  · exact hreg .status h1
  · exact hreg .srcLen h2
  · exact hreg .dstLen h3
  · exact hreg .valLo h4
  · exact hreg .valHi h5
  · exact hreg .srcCapr h6
  · exact hreg .dstCapr h7
  · have hlo : 0x20 ≤ a.toNat := by
      simp only [← BitVec.toNat_inj, BitVec.toNat_ofNat] at h0 h1 h2 h3 h4 h5 h6 h7
      omega
    rw [State.busRead_reserved (s.placeAt_window_reserved hlo hwin), if_pos hwin]

/-- A read of a byte of SRC_BUF answers it (R51, R55). -/
theorem State.busRead_src {s : State} {a : Word} {i : Nat} (h : s.placeAt a = .src i) :
    s.busRead a = .byte (s.srcByte i) := by
  unfold State.busRead; rw [h]

/-- A read of a byte of DST_BUF answers it (R51, R55). -/
theorem State.busRead_dst {s : State} {a : Word} {i : Nat} (h : s.placeAt a = .dst i) :
    s.busRead a = .byte (s.dstByte i) := by
  unfold State.busRead; rw [h]

/-- Settles O8, by the address map outside the register window. -/
theorem bufferReads : Obligations.BufferReads := by
  intro s a rest hc h ha
  have hplace := s.placeAt_outside hc a ha
  rw [step_read h (accessLegal_b1 ha)]
  congr 2
  split_ifs at hplace ⊢
  · exact State.busRead_src hplace
  · exact State.busRead_dst hplace
  · rw [State.busRead_reserved hplace, if_neg (by omega)]

/-- Settles O11: a read answers what stands at the address, which the host's side has no part in. -/
theorem readsHaveNoSideEffect : Obligations.ReadsHaveNoSideEffect := by
  intro s t width addr rest h ht
  cases hl : accessLegal width addr
  · cases (step_illFormed h hl).symm.trans ht
  · cases (step_read h hl).symm.trans ht
    exact ⟨rfl, fun rest' r => step_read rfl hl⟩

/-! ### Stops -/

/-- Settles O15: a well-formed event is answered and leaves the later ones pending. -/
theorem legalHostNeverStops : Obligations.LegalHostNeverStops := by
  refine ⟨fun s hok => ?_, fun s r hr => ?_, fun s f => nomatch f⟩
  · obtain ⟨-, hs⟩ | ⟨e, rest, hp, hcase⟩ := step_cases s
    · exact ⟨s, hs, hok⟩
    · rw [HostOk, hp] at hok
      obtain ⟨he, hrest⟩ := List.forall_mem_cons.1 hok
      obtain ⟨hill, -⟩ | ⟨-, t, hs, hu⟩ := hcase
      · exact absurd (he.symm.trans hill) (by decide)
      · have hpend : t.pending = rest := by
          obtain ⟨w, a, -, rfl⟩ | ⟨w, a, d, -, -, hw⟩ | ⟨-, rfl⟩ := hu
          · rfl
          · exact (busWrite_keepsHost hw).1
          · rfl
        exact ⟨t, hs, by rwa [HostOk, hpend]⟩
  · obtain ⟨-, hs⟩ | ⟨e, rest, hp, ⟨hill, hs⟩ | ⟨-, t, hs, -⟩⟩ := step_cases s <;> cases hr.symm.trans hs
    exact ⟨rfl, e, rest, hp, hill⟩

/-! ### STATUS.DONE -/

/-- DONE is set in every STATUS word that a command leaves (R211, R212). -/
theorem statusDone_statusWord (c : StatusCode) (b : Byte) : statusDone (statusWord c b) = true := by
  have hc := c.bits_toNat_le
  have hb := b.isLt
  rw [statusDone, BitVec.getLsbD, Nat.testBit_eq_decide_div_mod_eq, decide_eq_true_iff, statusWord_toNat]
  omega

/-- Every end of a command sets DONE (R211, R212). -/
theorem EndsAs.statusDone {i : Instr} {s t : State} (e : EndsAs i s t) : statusDone t.status = true := by
  cases e <;> exact statusDone_statusWord _ _

/-- A run of a command word, legal or not, sets DONE (R211, R215). -/
theorem runCommand_statusDone {w : Word} {s t : State} (h : runCommand w s = .next t) : statusDone t.status = true := by
  obtain ⟨t', ht', ⟨i, -, e⟩ | ⟨-, rfl⟩⟩ := runCommand_ends w s <;> cases h.symm.trans ht'
  · exact e.statusDone
  · exact statusDone_statusWord _ _

theorem eq_zero_of_regAt_cmd {offset : Nat} (h : regAt offset = some .cmd) : offset = 0 := by
  unfold regAt at h
  split at h <;> cases h
  rfl

/-- Outside the register window stands no register (R51). -/
theorem State.placeAt_ne_reg (s : State) {a : Word} (h : 0x1000 ≤ a.toNat) (r : Reg) : s.placeAt a ≠ .reg r := by
  unfold State.placeAt locate windowEnd
  simp only []
  rw [if_neg (Nat.not_lt.2 h)]
  split_ifs <;> nofun

/-- CMD stands at address 0 only (R51). -/
theorem State.eq_zero_of_placeAt_cmd {s : State} {a : Word} (h : s.placeAt a = .reg .cmd) : a = 0#32 := by
  have hwin : a.toNat < 0x1000 := Nat.not_le.1 fun hle => s.placeAt_ne_reg hle .cmd h
  rw [s.placeAt_window a hwin] at h
  split at h
  · next r hr =>
    cases h
    exact BitVec.eq_of_toNat_eq (eq_zero_of_regAt_cmd hr)
  · cases h

/-- A legal access at address 0 has 4 bytes (R52). -/
theorem eq_b4_of_accessLegal_zero {w : Width} (h : accessLegal w 0#32 = true) : w = .b4 := by
  obtain ⟨-, hw, -⟩ | ⟨hge, -⟩ := (accessLegal_iff w _).1 h
  · exact hw
  · exact absurd hge (by decide)

/-- A legal write that is no CMD write leaves STATUS as it was (R25, R54). -/
theorem busWrite_status {w : Width} {a : Word} {d : DWord} {s t : State} (hl : accessLegal w a = true)
    (hne : HostEvent.write w a d ≠ cmdWrite d) (h : busWrite a d s = .next t) : t.status = s.status := by
  obtain ⟨t', ht', hcase⟩ := busWrite_cases a d s
  cases h.symm.trans ht'
  obtain ⟨hp, -⟩ | ⟨r, -, -, rfl⟩ | ⟨i, -, rfl⟩ | rfl := hcase
  · obtain rfl := State.eq_zero_of_placeAt_cmd hp
    obtain rfl := eq_b4_of_accessLegal_zero hl
    exact absurd rfl hne
  · cases r <;> rfl
  · rfl
  · rfl

/-- Settles O19: a CMD write runs its word, and every other event but a reset leaves STATUS. -/
theorem doneFromFirstCommand : Obligations.DoneFromFirstCommand := by
  refine ⟨by decide, fun s t d rest h ht => runCommand_statusDone ((step_cmdWrite h).symm.trans ht),
    fun s t e rest h hreset hcmd ht => ?_⟩
  obtain ⟨hp, -⟩ | ⟨e', rest', hp, ⟨-, hs⟩ | ⟨-, u, hs, hu⟩⟩ := step_cases s
  · cases h.symm.trans hp
  · cases ht.symm.trans hs
  · cases ht.symm.trans hs
    cases h.symm.trans hp
    obtain ⟨w, a, -, rfl⟩ | ⟨w, a, d, rfl, hl, hw⟩ | ⟨rfl, -⟩ := hu
    · rfl
    · exact (busWrite_status hl (hcmd d) hw :)
    · exact absurd rfl hreset

/-! ### The command a step runs -/

/-- A legal command word runs its command with CMD holding the word (R210). -/
theorem runCommand_legal {w : Word} {i : Instr} (h : decode w = .ok i) (s : State) :
    runCommand w s = exec i { s with cmd := w } := by
  unfold runCommand; rw [h]; rfl

/-- The access that `State.withFetchWord` places is a CMD write of the word (log entry 1). -/
theorem State.withFetchWord_pending (s : State) (w : Word) :
    (s.withFetchWord 32 w.toNat).pending = cmdWrite (w.setWidth 64) :: s.pending := by
  have hw : BitVec.ofNat 32 (w.toNat % 2 ^ 32) = w := by
    rw [Nat.mod_eq_of_lt w.isLt, BitVec.ofNat_toNat, BitVec.setWidth_eq]
  rw [State.withFetchWord, hw]
  rfl

/-- Settles O4: a CMD write runs its word, and a placed word is one. -/
theorem stepRunsDecodedCommand : Obligations.StepRunsDecodedCommand := by
  refine ⟨fun s d rest i hp hd => (step_cmdWrite hp).trans (runCommand_legal hd _), fun s w i hd => ?_⟩
  have hw : (w.setWidth 64).setWidth 32 = w := by rw [BitVec.setWidth_setWidth_of_le _ (by decide), BitVec.setWidth_eq]
  rw [step_cmdWrite (s.withFetchWord_pending w), hw]
  exact runCommand_legal hd _

/-! ### Reset and the idle host -/

/-- Settles O12, by the state of R240 written out, the bounds of R7 and the contents of the tables. -/
theorem resetState : Obligations.ResetState := by
  obtain ⟨hsrcMin, hsrcMax, hdstMin, hdstMax⟩ := config_caps_bounds
  exact ⟨rfl, rfl, rfl, rfl, rfl, rfl, reset_srcCapr_toNat, reset_dstCapr_toNat, hsrcMin, hsrcMax, hdstMin, hdstMax,
    fun _ => rfl, fun _ => rfl, tablesHold⟩

/-- Settles O13: a reset event answers the state of `State.hostReset`. -/
theorem laterReset : Obligations.LaterReset := fun _ _ h =>
  ⟨_, step_reset h, rfl, rfl, rfl, rfl, rfl, rfl, rfl, rfl, fun _ => rfl, fun _ => rfl, rfl⟩

/-- Settles O14: with no event pending there is nothing to perform (log entry 2). -/
theorem idleWithoutHost : Obligations.IdleWithoutHost := fun _ => step_idle

end Sys2Proof.Machine
end

section
/-! PROOFS about all commands (20_memory.md R60, 60_exceptions.md R210 to R214): each follows from the ways a command
can end, `EndsAs`, or, for two runs, from `EndRel`. -/

namespace Sys2Proof.Machine

open Sys2Proof.Claims

/-! ### One run -/

/-- A command that has a RANGE condition may raise RANGE (R213, R216). -/
theorem mayRaise_range_of_rangeCondition {i : Instr} {s : State} (h : rangeCondition s i) : mayRaise i 5 := by
  cases i <;> simp_all [rangeCondition, mayRaise]

section
variable {i : Instr} {s t : State} (e : EndsAs i s t)
include e

/-- No command writes an input, a capacity or the host's side (R60). -/
theorem EndsAs.keepsInputs : KeepsInputs s t := by cases e <;> exact KeepsInputs.refl s

/-- A command ends by finish, with DST kept from DST_LEN on, or by raise (R211, R212). -/
theorem EndsAs.finishOrRaise :
    (t.status = 0x80000000#32 ∧ KeepsDstFrom t.dstLen.toNat s t ∧ t.draws = s.draws) ∨
    (∃ code b, Raised code b t ∧ 1 ≤ code ∧ code ≤ 6 ∧ (b ≠ 0 → code = 1 ∨ code = 6) ∧ KeepsVal s t) := by
  have noByte : ∀ {code : Nat}, (0 : Byte) ≠ 0 → code = 1 ∨ code = 6 := fun hb => absurd rfl hb
  cases e with
  | range => exact .inr ⟨5, 0, .raise s .range 0, by decide, by decide, noByte, rfl, rfl⟩
  | invalidByte _ b => exact .inr ⟨1, b, .raise _ .invalidByte b, by decide, by decide, fun _ => .inl rfl, rfl, rfl⟩
  | oddLength => exact .inr ⟨2, 0, .raise _ .oddLength 0, by decide, by decide, noByte, rfl, rfl⟩
  | invalidLength => exact .inr ⟨3, 0, .raise s .invalidLength 0, by decide, by decide, noByte, rfl, rfl⟩
  | alphabet _ b => exact .inr ⟨6, b, .raise s .alphabet b, by decide, by decide, fun _ => .inr rfl, rfl, rfl⟩
  | wrote _ out len hl hc =>
    have hlen : len < 2 ^ 32 := by
      have hcap := s.dstCapr.isLt
      omega
    obtain ⟨hstatus, hdst⟩ := Finished.finish (s.writeDst out) hlen
    refine .inl ⟨hstatus, ?_, rfl⟩
    rw [hdst]
    exact .writeDst s out len hl.le len
  | value => exact .inl ⟨statusWord_ok, fun _ _ => rfl, rfl⟩

/-- Only a command of `writesVal` that succeeds writes VAL (R28). -/
theorem EndsAs.keepsVal (h : writesVal i = false ∨ codeOf t ≠ 0) : KeepsVal s t := by
  cases e with
  | value _ _ hv =>
    obtain h | h := h
    · exact absurd (hv.symm.trans h) (by decide)
    · exact absurd (State.codeOf_finish _ _) h
  | range | invalidByte | oddLength | invalidLength | alphabet | wrote => exact ⟨rfl, rfl⟩

/-- A command ends with OK or with a code that R213 lists for it. -/
theorem EndsAs.codeOf_eq_zero_or_mayRaise : codeOf t = 0 ∨ mayRaise i (codeOf t) := by
  cases e with
  | range h => exact .inr (State.codeOf_raise s .range 0 ▸ mayRaise_range_of_rangeCondition h)
  | invalidByte _ b hm => exact .inr (State.codeOf_raise _ .invalidByte b ▸ hm)
  | oddLength _ hm => exact .inr (State.codeOf_raise _ .oddLength 0 ▸ hm)
  | invalidLength _ hm => exact .inr (State.codeOf_raise s .invalidLength 0 ▸ hm)
  | alphabet _ b hm => exact .inr (State.codeOf_raise s .alphabet b ▸ hm)
  | wrote | value => exact .inl (State.codeOf_finish _ _)

/-- DST after an error: kept from the decode bound on, and all of it unless bytes are drawn (R214). -/
theorem EndsAs.keepsDst_of_error (h : codeOf t ≠ 0) : KeepsDstFrom (decodeBound s.n i) s t ∧
    (codeOf t ≠ 1 → codeOf t ≠ 2 → (∀ j, t.dstByte j = s.dstByte j) ∧ t.draws = s.draws) := by
  cases e with
  | range | invalidLength | alphabet => exact ⟨fun _ _ => rfl, fun _ _ => ⟨fun _ => rfl, rfl⟩⟩
  | invalidByte _ b => exact ⟨.drawDst s _ _ _, fun h1 => absurd (State.codeOf_raise _ .invalidByte b) h1⟩
  | oddLength => exact ⟨.drawDst s _ _ _, fun _ h2 => absurd (State.codeOf_raise _ .oddLength 0) h2⟩
  | wrote | value => exact absurd (State.codeOf_finish _ _) h

/-- After INVALID_BYTE and ODD_LENGTH each byte below the decode bound is a fresh draw (log entry 7). -/
theorem EndsAs.drawn (h : codeOf t = 1 ∨ codeOf t = 2) : t.draws = s.draws + decodeBound s.n i ∧
    ∀ j < decodeBound s.n i, t.dstByte j = Config.errorDstByte (s.draws + j) := by
  cases e with
  | invalidByte | oddLength => exact ⟨rfl, fun j hj => (s.dstByte_drawDst _ j).trans (if_pos hj)⟩
  | range | invalidLength | alphabet => rw [State.codeOf_raise] at h; exact absurd h (by decide)
  | wrote | value => rw [State.codeOf_finish] at h; exact absurd h (by decide)

end

/-- Settles O20: every command ends, in one of the ways of `EndsAs`. -/
theorem commandsKeepInputs : Obligations.CommandsKeepInputs := fun i s =>
  let ⟨t, ht, e⟩ := exec_ends i s
  ⟨t, ht, e.keepsInputs, e.statusDone⟩

/-- Settles O21: a success is a finish and an error a raise. -/
theorem commandsFinishOrRaise : Obligations.CommandsFinishOrRaise := fun _ _ _ h => (exec_next_ends h).finishOrRaise

/-- Settles O22: of the ways a command can end, only a success with a result writes VAL. -/
theorem valWriters : Obligations.ValWriters := fun _ _ _ h => (exec_next_ends h).keepsVal

/-- Settles O24: each way a command can end with an error asks that the command may raise it. -/
theorem codesByCommand : Obligations.CodesByCommand := fun _ _ _ h => (exec_next_ends h).codeOf_eq_zero_or_mayRaise

/-- Settles O25: an error writes DST below the decode bound or not at all. -/
theorem dstAfterError : Obligations.DstAfterError := fun _ _ _ h => (exec_next_ends h).keepsDst_of_error

/-- Settles O26: the two errors of the decoders that draw take the next free values. -/
theorem drawnAfterError : Obligations.DrawnAfterError := fun _ _ _ h => (exec_next_ends h).drawn

/-! ### Two runs -/

section
variable {Q : State → State → Prop} {i : Instr} {s u t : State}

/-- When every end of a command from two states is related by `Q`, so are the states in which its runs end. -/
theorem EndRel.exists_next (r : EndRel Q s u) (h : Machine.exec i s = .next t) :
    ∃ t', Machine.exec i u = .next t' ∧ Q t t' := by
  obtain ⟨t₀, t', ht₀, ht', hQ⟩ := r.exec i
  cases h.symm.trans ht₀
  exact ⟨t', ht', hQ⟩

end

/-- With other source bytes at and above SRC_LEN every end of a command leaves the same state but for them (R31). The
drawn bytes agree too, as both states have the same count of draws (log entry 7); the statement leaves them out. -/
theorem endRel_src {s : State} {m : Memory} (h : ∀ j < s.n, { s with src := m }.srcByte j = s.srcByte j) :
    EndRel (fun t t' => t' = { t with src := m }) s { s with src := m } where
  caps := ⟨rfl, rfl⟩
  raise _ _ := rfl
  draw _ _ _ := rfl
  wrote _ _ _ _ := rfl
  val _ := rfl
  n := rfl
  bytes _ hk := State.srcBytes_congr fun j hj => h j (hj.trans_le hk)
  v := rfl

/-- Settles O27: the two states are related as `endRel_src` says. -/
theorem srcBeyondLenNeverRead : Obligations.SrcBeyondLenNeverRead := by
  intro i s t m h ht
  obtain ⟨t', ht', rfl⟩ := (endRel_src h).exists_next ht
  exact ⟨_, ht', rfl, rfl, ⟨rfl, rfl⟩, fun _ _ => rfl⟩

/-- With another DST_BUF every end of a command leaves the same registers and the same output (R60). -/
theorem endRel_dst (s : State) (m : Memory) :
    EndRel (fun t t' => t'.status = t.status ∧ t'.dstLen = t.dstLen ∧ KeepsVal t t' ∧
      ∀ j < t.dstLen.toNat, t'.dstByte j = t.dstByte j) s { s with dst := m } where
  caps := ⟨rfl, rfl⟩
  raise _ _ := ⟨rfl, rfl, ⟨rfl, rfl⟩, fun _ hj => absurd hj (Nat.not_lt_zero _)⟩
  draw _ _ _ := ⟨rfl, rfl, ⟨rfl, rfl⟩, fun _ hj => absurd hj (Nat.not_lt_zero _)⟩
  wrote out len hout hlen := by
    refine ⟨rfl, rfl, ⟨rfl, rfl⟩, fun j hj => ?_⟩
    obtain ⟨-, hdst⟩ := Finished.finish (s.writeDst out) hlen
    have hget := List.getElem?_eq_getElem (hj.trans_eq (hdst.trans hout.symm))
    rw [State.dstByte_wrote _ _ _ _ _ hget, State.dstByte_wrote _ _ _ _ _ hget]
  val _ := ⟨rfl, rfl, ⟨rfl, rfl⟩, fun _ hj => absurd hj (Nat.not_lt_zero _)⟩
  n := rfl
  bytes _ _ := rfl
  v := rfl

/-- Settles O28: the two states are related as `endRel_dst` says. -/
theorem dstNeverRead : Obligations.DstNeverRead := fun _ s _ m => (endRel_dst s m).exists_next

/-- With another CMD, STATUS and DST_LEN every end of a command leaves the same state but for CMD (R30, R60);
of drawn bytes what stands at `endRel_src` holds. -/
theorem endRel_status (s : State) (a b c : Word) :
    EndRel (fun t t' => t' = { t with cmd := a }) s { s with cmd := a, status := b, dstLen := c } where
  caps := ⟨rfl, rfl⟩
  raise _ _ := rfl
  draw _ _ _ := rfl
  wrote _ _ _ _ := rfl
  val _ := rfl
  n := rfl
  bytes _ _ := rfl
  v := rfl

/-- Settles O29: the two states are related as `endRel_status` says. -/
theorem statusNeverRead : Obligations.StatusNeverRead := by
  intro i s t a b c ht
  obtain ⟨t', ht', rfl⟩ := (endRel_status s a b c).exists_next ht
  exact ⟨_, ht', rfl, rfl, rfl, ⟨rfl, rfl⟩, fun _ _ => rfl⟩

end Sys2Proof.Machine
end

section
/-! PROOFS of the round trips of the integer unit (43_integer.md R175) and of the hex unit (40_hex.md R106), and what
every round trip of an encode and a decode command shares. -/

namespace Sys2Proof.Machine

open Sys2Proof.Claims

/-! ### The bytes of a number (R161) -/

/-- Byte `j` of the little-endian number of a sequence is its byte `j`. -/
theorem leValue_byte {b : List Byte} {j : Nat} (h : j < b.length) : leValue b / 2 ^ (8 * j) % 256 = b[j].toNat := by
  induction b generalizing j with
  | nil => simp at h
  | cons x b ih =>
    have hx := x.isLt
    rw [leValue]
    cases j with
    | zero =>
      rw [Nat.mul_zero, pow_zero, Nat.div_one, List.getElem_cons_zero]
      omega
    | succ j =>
      have hdiv : (x.toNat + 256 * leValue b) / 256 = leValue b := by omega
      rw [Nat.mul_succ, Nat.add_comm (8 * j) 8, pow_add, ← Nat.div_div_eq_div_mul, show 2 ^ 8 = 256 from rfl, hdiv,
        List.getElem_cons_succ]
      exact ih (Nat.lt_of_succ_lt_succ h)

/-- The lowest `w` bytes of a number, each at its place, make the number modulo `2^(8w)`. -/
theorem sum_bytes_eq_mod (v w : Nat) :
    ((List.range w).map fun j => v / 2 ^ (8 * j) % 256 * 2 ^ (8 * j)).sum = v % 2 ^ (8 * w) := by
  induction w with
  | zero => simp [Nat.mod_one]
  | succ w ih =>
    rw [List.range_succ, List.map_append, List.sum_append, ih, List.map_singleton, List.sum_singleton, Nat.mul_succ,
      pow_add, Nat.mod_mul, Nat.mul_comm (2 ^ (8 * w)) (_ % 2 ^ 8)]
    rfl

/-- Big-endian is little-endian reversed (R160). -/
theorem intEncode_be_eq_reverse (w : Nat) (v : DWord) : intEncode w .be v = (intEncode w .le v).reverse := by
  refine List.ext_getElem (by simp) fun j _ _ => ?_
  simp [intEncode]

theorem leValue_intEncode (w : Nat) (v : DWord) : leValue (intEncode w .le v) = v.toNat % 2 ^ (8 * w) := by
  rw [intEncode, leValue_map_range, ← sum_bytes_eq_mod]
  simp only [valueByte_toNat]

/-- The decode of an encoded value that fits the width is the value. -/
theorem intDecode_intEncode (o : ByteOrder) {w : Nat} {v : DWord} (hv : v.toNat < 2 ^ (8 * w)) :
    intDecode o (intEncode w o v) = v.toNat := by
  cases o with
  | le => rw [intDecode, leValue_intEncode, Nat.mod_eq_of_lt hv]
  | be =>
    rw [intDecode, beValue_eq_leValue_reverse, intEncode_be_eq_reverse, List.reverse_reverse, leValue_intEncode,
      Nat.mod_eq_of_lt hv]

theorem intEncode_leValue {b : List Byte} (h : b.length ≤ 8) :
    intEncode b.length .le (BitVec.ofNat 64 (leValue b)) = b := by
  have hlt : leValue b < 2 ^ 64 := calc
    leValue b < 256 ^ b.length := leValue_lt b
    _ ≤ 256 ^ 8 := Nat.pow_le_pow_right (by decide) h
    _ = 2 ^ 64 := by norm_num
  refine List.ext_getElem (by simp) fun j _ hj => BitVec.eq_of_toNat_eq ?_
  simp only [intEncode, List.getElem_map, List.getElem_range]
  rw [valueByte_toNat, BitVec.toNat_ofNat, Nat.mod_eq_of_lt hlt, leValue_byte hj]

/-- The encoding of a decoded buffer is the buffer. -/
theorem intEncode_intDecode (o : ByteOrder) {b : List Byte} (h : b.length ≤ 8) :
    intEncode b.length o (BitVec.ofNat 64 (intDecode o b)) = b := by
  cases o with
  | le => exact intEncode_leValue h
  | be =>
    have hrev := intEncode_leValue (b := b.reverse) (by simpa using h)
    rw [List.length_reverse] at hrev
    rw [intDecode, beValue_eq_leValue_reverse, intEncode_be_eq_reverse, hrev, List.reverse_reverse]

/-! ### The integer commands (R175) -/

section
variable {enc dec : Instr} {w : Nat} {o : ByteOrder} (hw : w ≤ 8) (henc : ∀ s, exec enc s = .next (s.packInt w o))
  (hdec : ∀ s, exec dec s = .next (s.unpackInt w o))
include hw henc hdec

/-- An encode of a value that fits, its bytes copied back, then the decode leave the value. -/
theorem unpack_after_pack {s : State} (hs : valNat s < 2 ^ (8 * w)) : ∃ t, exec enc s = .next t ∧
    ∀ u : State, u.n = w → (∀ j < w, u.srcByte j = t.dstByte j) → Succeeds dec u 0 fun v => valNat v = valNat s := by
  refine ⟨_, henc s, fun u hn hb => ?_⟩
  have hbytes : u.srcBytes w = intEncode w o s.val := by
    have h := State.srcBytes_of_dstByte_endCopy (s := s) (u := u) (out := intEncode w o s.val)
    rw [intEncode_length] at h
    exact h hb
  have hval : intDecode o (u.srcBytes w) = valNat s := by
    rw [hbytes, intDecode_intEncode o (s.val_toNat ▸ hs), s.val_toNat]
  rw [← hval]
  exact .of_endLength ((hdec u).trans (congrArg _ (u.unpackInt_ok o hn))) (intDecode_srcBytes_lt o u hw)

/-- A decode of a buffer, then the encode of its value write the buffer's bytes. -/
theorem pack_after_unpack {s : State} (hn : s.n = w) : ∃ t, exec dec s = .next t ∧
    ∀ u : State, valNat u = valNat t → Succeeds enc u w fun v => ∀ j < w, v.dstByte j = s.srcByte j := by
  refine ⟨_, (hdec s).trans (congrArg _ (s.unpackInt_ok o hn)), fun u hu => ?_⟩
  have hval : u.val = BitVec.ofNat 64 (intDecode o (s.srcBytes w)) := by
    rw [← valNat_endLength s (intDecode_srcBytes_lt o s hw), ← hu, ← u.val_toNat, BitVec.ofNat_toNat,
      BitVec.setWidth_eq]
  have hbytes : intEncode w o u.val = s.srcBytes w := by
    have h := intEncode_intDecode o (b := s.srcBytes w) (by simpa using hw)
    rwa [State.n_srcBytes_length, ← hval] at h
  refine .of_endCopy (henc u) (intEncode_length w o u.val) (by omega) fun j hj => ?_
  exact u.dstByte_wrote _ _ _ _ (hbytes ▸ s.srcBytes_getElem? hj)

end

/-- The encode and the decode command of each width and order, with the width (30_encoding.md R73). -/
def integerCommands : List (Instr × Instr × Nat) :=
  [(.intEnc16Le, .intDec16Le, 2), (.intEnc16Be, .intDec16Be, 2), (.intEnc32Le, .intDec32Le, 4),
    (.intEnc32Be, .intDec32Be, 4), (.intEnc64Le, .intDec64Le, 8), (.intEnc64Be, .intDec64Be, 8)]

/-- They have the common forms of R162, with one order for both. -/
theorem integerCommands_forms {p : Instr × Instr × Nat} (hp : p ∈ integerCommands) : ∃ o, p.2.2 ≤ 8 ∧
    (∀ s, exec p.1 s = .next (s.packInt p.2.2 o)) ∧ ∀ s, exec p.2.1 s = .next (s.unpackInt p.2.2 o) := by
  simp only [integerCommands, List.mem_cons, List.not_mem_nil, or_false] at hp
  obtain rfl | rfl | rfl | rfl | rfl | rfl := hp
  · exact ⟨.le, by decide, fun _ => rfl, fun _ => rfl⟩
  · exact ⟨.be, by decide, fun _ => rfl, fun _ => rfl⟩
  · exact ⟨.le, by decide, fun _ => rfl, fun _ => rfl⟩
  · exact ⟨.be, by decide, fun _ => rfl, fun _ => rfl⟩
  · exact ⟨.le, by decide, fun _ => rfl, fun _ => rfl⟩
  · exact ⟨.be, by decide, fun _ => rfl, fun _ => rfl⟩

/-- Settles O44, by the laws of the common forms. -/
theorem integerRoundTrip : Obligations.IntegerRoundTrip := by
  refine ⟨fun p hp s => ?_, fun p hp s => ?_, intEncode_be_eq_reverse⟩
  · obtain ⟨o, hw, henc, hdec⟩ := integerCommands_forms hp
    exact unpack_after_pack hw henc hdec
  · obtain ⟨o, hw, henc, hdec⟩ := integerCommands_forms hp
    exact pack_after_unpack hw henc hdec

/-! ### A round trip of an encode and a decode command -/

/-- An encode and a decode command round trip on an input when their codecs do, within the capacities. -/
theorem roundTripAt_of_codec {enc dec : Instr} {encLen decLen bound : Nat → Nat} {encode : List Byte → List Byte}
    {codec : List Byte → Except CodecError (List Byte)} {s : State}
    (henc : exec enc s = .next (s.endEncode s.n (encLen s.n) (encode (s.srcBytes s.n))))
    (hdec : ∀ u, exec dec u = .next (u.endDecode u.n (decLen u.n) (codec (u.srcBytes u.n))))
    (hlen : (encode (s.srcBytes s.n)).length = encLen s.n) (hbound : decLen (encLen s.n) = bound s.n)
    (hle : s.n ≤ bound s.n) (hround : codec (encode (s.srcBytes s.n)) = .ok (s.srcBytes s.n)) :
    RoundTripAt enc dec encLen bound s := by
  intro hsrc hdst
  have hlt : encLen s.n < 2 ^ 32 := hdst.trans_lt s.dstCapr.isLt
  refine ⟨_, henc.trans (congrArg _ (s.endEncode_ok _ (by omega))), ?_⟩
  rw [← hlen] at hlt ⊢
  rintro u ⟨hn, hb, hsrcCap, hdstCap⟩
  obtain ⟨hun, hbytes⟩ := State.srcBytes_of_endCopy hlt hn hb
  have hbound' : decLen u.n = bound s.n := by rw [hun, hlen, hbound]
  have hsrcCap' : u.n ≤ u.srcCapr.toNat := by rwa [State.n, hn]
  refine .of_endDecode (hdec u) (fun hr => ?_) (by rw [hbytes, hround]) (s.n_srcBytes_length s.n)
    (hbound'.symm ▸ hle) fun j hj => u.dstByte_wrote _ _ _ _ (s.srcBytes_getElem? hj)
  rw [hbound'] at hr
  exact hr.elim (Nat.not_lt.2 hsrcCap') (Nat.not_lt.2 hdstCap)

/-! ### The hex codec (R106) -/

theorem hexDmap_symbol : ∀ v < 16, hexDmap (symbol hexAlph v) = BitVec.ofNat 8 v := by decide

theorem hexEncode_cons (b : Byte) (x : List Byte) : hexEncode (b :: x) =
    symbol hexAlph (b.toNat / 16) :: symbol hexAlph (b.toNat % 16) :: hexEncode x := rfl

/-- Decoding an encoding gives the bytes back, two symbols for each. -/
theorem hexDecode_hexEncode (x : List Byte) : hexDecode (hexEncode x) = .ok x := by
  induction x with
  | nil => rfl
  | cons b x ih =>
    have hb := b.isLt
    have hhigh := hexDmap_symbol (b.toNat / 16) (by omega)
    have hlow := hexDmap_symbol (b.toNat % 16) (by omega)
    have hne : ∀ v < 16, BitVec.ofNat 8 v ≠ sentinel := by decide
    rw [hexEncode_cons, hexDecode, hhigh, hlow, if_neg (hne _ (by omega)), if_neg (hne _ (by omega)), ih]
    refine congrArg (fun c => Except.ok (c :: x)) (BitVec.eq_of_toNat_eq ?_)
    simp only [BitVec.toNat_ofNat]
    omega

/-- Encode gives a hex digit's value the digit back unless it is an upper-case letter (R34, R42). -/
theorem symbol_hexDmap_iff {c : Byte} (h : hexDmap c ≠ sentinel) :
    symbol hexAlph (hexDmap c).toNat = c ↔ ¬ (0x41 ≤ c.toNat ∧ c.toNat ≤ 0x46) := by
  obtain ⟨-, hcode⟩ := alphabetIs_hex
  have hne : hexMapCode c.toNat ≠ 0xFF := fun he => h (BitVec.eq_of_toNat_eq ((mapIs_hexDmap c).trans he))
  rw [← BitVec.toNat_inj, hcode _ (hexDmap_toNat_lt h), mapIs_hexDmap c, hexAlphCode]
  unfold hexMapCode at hne ⊢
  split_ifs at hne ⊢ <;> omega

/-- Encoding a decoded input gives it back exactly when it has no upper-case letter. -/
theorem hexEncode_eq_iff {x y : List Byte} (h : hexDecode x = .ok y) :
    hexEncode y = x ↔ ∀ c ∈ x, ¬ (0x41 ≤ c.toNat ∧ c.toNat ≤ 0x46) := by
  induction x using hexDecode.induct generalizing y with
  | case1 =>
    cases h
    exact iff_of_true rfl fun _ hc => absurd hc List.not_mem_nil
  | case2 c hc => simp [hexDecode, hc] at h
  | case3 c hc => simp [hexDecode, hc] at h
  | case4 p q rest hp => simp [hexDecode, hp] at h
  | case5 p q rest hp hq => simp [hexDecode, hp, hq] at h
  | case6 p q rest hp hq e he => simp [hexDecode, hp, hq, he] at h
  | case7 p q rest hp hq out hout ih =>
    simp only [hexDecode, hp, hq, hout, if_false, Except.ok.injEq] at h
    subst h
    have hlt := hexDmap_toNat_lt hq
    have hdiv : ((hexDmap p).toNat * 16 + (hexDmap q).toNat) / 16 = (hexDmap p).toNat := by omega
    have hmod : ((hexDmap p).toNat * 16 + (hexDmap q).toNat) % 16 = (hexDmap q).toNat := by omega
    rw [hexEncode_cons, hexPair_toNat hp hq, hdiv, hmod, List.cons.injEq, List.cons.injEq, symbol_hexDmap_iff hp,
      symbol_hexDmap_iff hq, ih hout, List.forall_mem_cons, List.forall_mem_cons]

/-- What a run of a length command leaves in VAL. -/
theorem valNat_of_lengthCommand {i : Instr} {f : Nat → Nat} (h : LengthCommand i f) {s t : State}
    (ht : exec i s = .next t) : valNat t = f s.n := by
  obtain ⟨t', ht', -, -, -, -, hval⟩ := h s
  cases ht.symm.trans ht'
  exact hval

/-- Settles O33: the codec's laws, and the lengths twice and half SRC_LEN. -/
theorem hexRoundTrip : Obligations.HexRoundTrip := by
  obtain ⟨-, -, henclen, hdeclen⟩ := Hex.hexLengths
  refine ⟨fun s => ?_, hexDecode_hexEncode, fun s t u v ht hu hhi hv => ?_, fun s s' t t' hle ht ht' => ?_,
    fun _ _ => hexEncode_eq_iff⟩
  · exact roundTripAt_of_codec (decLen := fun n => n / 2) rfl (fun _ => rfl) (by simp)
      (Nat.mul_div_cancel_left _ two_pos) le_rfl (hexDecode_hexEncode _)
  · have hval := valNat_of_lengthCommand henclen ht
    have hun : u.n = 2 * s.n := by rw [← hval, valNat, hhi, State.n, hu]; simp
    rw [valNat_of_lengthCommand hdeclen hv, hun, Nat.mul_div_cancel_left _ two_pos]
  · rw [valNat_of_lengthCommand henclen ht, valNat_of_lengthCommand henclen ht']
    exact Nat.mul_le_mul_left 2 hle

end Sys2Proof.Machine
end

section
/-! PROOFS of the round trips of base32 (41_base32.md R129) and base64 (42_base64.md R149). Both follow from one
law: for a geometry whose symbols hold exactly the bits of a group and an alphabet of one symbol for each value, a
decode of an encoding gives the bytes back, group by group. -/

namespace Sys2Proof.Machine

open Sys2Proof.Claims

/-! ### A sequence and its groups -/

/-- A first group of whole length stands before the groups of the rest. -/
theorem groupsOf_append {α : Type} {k : Nat} (hk : 0 < k) {a b : List α} (ha : a.length = k) :
    groupsOf k (a ++ b) = a :: groupsOf k b := by
  refine List.ext_getElem? fun i => ?_
  rw [groupsOf_getElem? hk, List.length_append, ha]
  cases i with
  | zero =>
    rw [Nat.mul_zero, if_pos (by omega), List.drop_zero, List.take_left' ha, List.getElem?_cons_zero]
  | succ i =>
    rw [List.getElem?_cons_succ, groupsOf_getElem? hk, Nat.mul_succ, Nat.add_comm (k * i), ← List.drop_drop,
      List.drop_left' ha]
    simp only [Nat.add_lt_add_iff_left]

/-- A sequence that fits one group is that group. -/
theorem groupsOf_short {α : Type} {k : Nat} {x : List α} (hx : x ≠ []) (hle : x.length ≤ k) : groupsOf k x = [x] := by
  have hpos := List.length_pos_iff.2 hx
  refine List.ext_getElem? fun i => ?_
  rw [groupsOf_getElem? (hpos.trans_le hle)]
  cases i with
  | zero => rw [Nat.mul_zero, if_pos hpos, List.drop_zero, List.take_of_length_le hle, List.getElem?_cons_zero]
  | succ i => rw [if_neg (by rw [Nat.mul_succ]; omega), List.getElem?_cons_succ, List.getElem?_nil]

/-- The groups of pieces of `k` elements put together are the pieces. -/
theorem groupsOf_flatMap {α β : Type} {k : Nat} (hk : 0 < k) (f : β → List α) (l : List β)
    (hf : ∀ y ∈ l, (f y).length = k) : groupsOf k (l.flatMap f) = l.map f := by
  induction l with
  | nil => rfl
  | cons y l ih =>
    obtain ⟨hy, hl⟩ := List.forall_mem_cons.1 hf
    rw [List.flatMap_cons, groupsOf_append hk hy, ih hl, List.map_cons]

/-- A non-empty sequence is its groups put together: whole ones, then one of at most `k` elements. -/
theorem exists_groupsOf {α : Type} {k : Nat} (hk : 0 < k) (x : List α) (hx : x ≠ []) :
    ∃ ts t, groupsOf k x = ts ++ [t] ∧ (∀ u ∈ ts, u.length = k) ∧ t ≠ [] ∧ t.length ≤ k ∧ ts.flatten ++ t = x := by
  by_cases hle : x.length ≤ k
  · exact ⟨[], x, groupsOf_short hx hle, fun _ hu => absurd hu List.not_mem_nil, hx, hle, rfl⟩
  · have htake : (x.take k).length = k := by rw [List.length_take]; omega
    have hdrop : x.drop k ≠ [] := List.ne_nil_of_length_pos (by rw [List.length_drop]; omega)
    obtain ⟨ts, t, hgroups, hts, ht, htk, hflat⟩ := exists_groupsOf hk (x.drop k) hdrop
    refine ⟨x.take k :: ts, t, ?_, List.forall_mem_cons.2 ⟨htake, hts⟩, ht, htk, ?_⟩
    · rw [List.cons_append, ← hgroups, ← groupsOf_append hk htake, List.take_append_drop]
    · rw [List.flatten_cons, List.append_assoc, hflat, List.take_append_drop]
termination_by x.length
decreasing_by rw [List.length_drop]; omega

/-! ### Digits -/

/-- The first `k` of the `w` digits of a number in base `B`, each at its place, make the number without the rest. -/
theorem sum_digits_eq (B : Nat) {w v : Nat} (hv : v < B ^ w) {k : Nat} (hk : k ≤ w) :
    ((List.range k).map fun j => v / B ^ (w - 1 - j) % B * B ^ (w - 1 - j)).sum = v / B ^ (w - k) * B ^ (w - k) := by
  induction k with
  | zero => rw [Nat.sub_zero, Nat.div_eq_of_lt hv, Nat.zero_mul]; rfl
  | succ k ih =>
    have hplace : w - k = w - 1 - k + 1 := by omega
    rw [List.range_succ, List.map_append, List.sum_append, ih (by omega), List.map_singleton, List.sum_singleton,
      hplace, pow_succ, ← Nat.div_div_eq_div_mul, Nat.sub_right_comm w 1 k, ← Nat.sub_add_eq]
    conv_rhs => rw [← Nat.div_add_mod (v / B ^ (w - (k + 1))) B]
    ring

/-- The bytes of a sequence's number, left-justified in `w` bytes, are the sequence. -/
theorem beBytes_beValue {w : Nat} {bs : List Byte} (h : bs.length ≤ w) :
    beBytes w bs.length (beValue bs * 2 ^ (8 * (w - bs.length))) = bs := by
  refine List.ext_getElem (by simp) fun i _ hi => BitVec.eq_of_toNat_eq ?_
  have hrev : bs.length - 1 - i < bs.reverse.length := by rw [List.length_reverse]; omega
  have hplace : 8 * (w - 1 - i) = 8 * (bs.length - 1 - i) + 8 * (w - bs.length) := by omega
  simp only [beBytes, List.getElem_map, List.getElem_range]
  rw [BitVec.toNat_ofNat, hplace, pow_add, Nat.mul_div_mul_right _ _ (by positivity), beValue_eq_leValue_reverse]
  have hbyte := leValue_byte hrev
  rw [List.getElem_reverse] at hbyte
  simp only [show bs.length - 1 - (bs.length - 1 - i) = i by omega] at hbyte
  exact hbyte

theorem beValue_lt (bs : List Byte) : beValue bs < 256 ^ bs.length := by
  rw [beValue_eq_leValue_reverse, ← List.length_reverse]
  exact leValue_lt _

/-! ### A geometry and an alphabet that round trip -/

/-- The number of data symbols of an encoded group of `r` bytes. -/
def dataCount (g : Geometry) (r : Nat) : Nat := ceilDiv (8 * r) g.bits

/-- The symbols of a group hold exactly its bits, a padded final group is one that encode produces, and the alphabet has
one symbol for each value, none of them `=` (R121, R141, R35 to R38). -/
structure Codec (g : Geometry) (alph : List Byte) : Prop where
  bytes_pos : 0 < g.bytes
  whole : g.bits * g.symbols = 8 * g.bytes
  padded : ∀ r ≤ g.bytes, 0 < r → dataCount g r ≤ g.symbols ∧ g.bits * dataCount g r / 8 = r ∧
    (dataCount g r < g.symbols → dataCount g r ∈ g.padded)
  size : alph.length = 2 ^ g.bits
  size_lt : 2 ^ g.bits < 256
  nodup : alph.Nodup
  noPad : padByte ∉ alph

/-- The number of a group of bytes, left-justified in a whole group. -/
def groupValue (g : Geometry) (bs : List Byte) : Nat := beValue bs * 2 ^ (8 * (g.bytes - bs.length))

/-- The field of a group's number that symbol `j` carries. -/
def symbolField (g : Geometry) (bs : List Byte) (j : Nat) : Nat :=
  groupValue g bs / 2 ^ (g.bits * (g.symbols - 1 - j)) % 2 ^ g.bits

/-- Symbol `j` of an encoded group. -/
def encodedSymbol (g : Geometry) (alph bs : List Byte) (j : Nat) : Byte :=
  if j < dataCount g bs.length then symbol alph (symbolField g bs j) else padByte

theorem encodeGroup_eq_bytesOf (g : Geometry) (alph bs : List Byte) :
    encodeGroup g alph bs = bytesOf (encodedSymbol g alph bs) 0 g.symbols := by
  unfold encodeGroup bytesOf encodedSymbol symbolField groupValue dataCount
  simp only [Nat.zero_add]

section
variable {g : Geometry} {alph : List Byte} (c : Codec g alph)
include c

theorem Codec.bits_mul_symbols_pos : 0 < g.bits * g.symbols := c.whole ▸ Nat.mul_pos (by decide) c.bytes_pos

theorem Codec.symbols_pos : 0 < g.symbols := Nat.pos_of_mul_pos_left c.bits_mul_symbols_pos

theorem Codec.bits_pos : 0 < g.bits := Nat.pos_of_mul_pos_right c.bits_mul_symbols_pos

theorem Codec.symbol_mem {v : Nat} (hv : v < 2 ^ g.bits) : symbol alph v ∈ alph := by
  rw [symbol, List.getD_eq_getElem _ _ (c.size ▸ hv)]
  exact List.getElem_mem _

theorem Codec.symbol_ne_pad {v : Nat} (hv : v < 2 ^ g.bits) : symbol alph v ≠ padByte :=
  fun h => c.noPad (h ▸ c.symbol_mem hv)

theorem Codec.inverse_symbol {v : Nat} (hv : v < 2 ^ g.bits) : (inverse alph (symbol alph v)).toNat = v := by
  have hlen : v < alph.length := c.size ▸ hv
  rw [symbol, List.getD_eq_getElem _ _ hlen, inverse_getElem_toNat c.nodup hlen]

theorem Codec.inverse_symbol_ne_sentinel {v : Nat} (hv : v < 2 ^ g.bits) :
    inverse alph (symbol alph v) ≠ sentinel := fun h => by
  have hsize := c.size_lt
  have hval : v = 255 := by rw [← c.inverse_symbol hv, h]; rfl
  omega

end

theorem symbolField_lt (g : Geometry) (bs : List Byte) (j : Nat) : symbolField g bs j < 2 ^ g.bits :=
  Nat.mod_lt _ (by positivity)

theorem encodedSymbol_data {g : Geometry} {alph bs : List Byte} {j : Nat} (hj : j < dataCount g bs.length) :
    encodedSymbol g alph bs j = symbol alph (symbolField g bs j) := if_pos hj

theorem encodedSymbol_pad {g : Geometry} {alph bs : List Byte} {j : Nat} (hj : dataCount g bs.length ≤ j) :
    encodedSymbol g alph bs j = padByte := if_neg (Nat.not_lt.2 hj)

/-! ### One group -/

/-- The data symbols of an encoded group. -/
abbrev encodedData (g : Geometry) (alph bs : List Byte) : List Byte :=
  bytesOf (encodedSymbol g alph bs) 0 (dataCount g bs.length)

section
variable {g : Geometry} {alph bs : List Byte} (c : Codec g alph)
include c

/-- Every data symbol of an encoded group is in the alphabet. -/
theorem Codec.encodedData_good : ∀ a ∈ encodedData g alph bs, inverse alph a ≠ sentinel := fun a ha => by
  obtain ⟨j, hj, rfl⟩ := mem_bytesOf.1 ha
  rw [Nat.zero_add, encodedSymbol_data hj]
  exact c.inverse_symbol_ne_sentinel (symbolField_lt g bs j)

theorem Codec.groupValue_lt (hle : bs.length ≤ g.bytes) : groupValue g bs < (2 ^ g.bits) ^ g.symbols := by
  have hpow : 8 * g.bytes = 8 * bs.length + 8 * (g.bytes - bs.length) := by omega
  rw [← pow_mul, c.whole, hpow, pow_add, groupValue, pow_mul 2 8 bs.length]
  exact Nat.mul_lt_mul_of_pos_right (beValue_lt bs) (by positivity)

section
variable (hpos : 0 < bs.length) (hle : bs.length ≤ g.bytes)
include hpos hle

/-- The symbols before the first `=` of an encoded group are its data symbols. -/
theorem Codec.dataSymbols_encodeGroup : dataSymbols (encodeGroup g alph bs) = encodedData g alph bs := by
  obtain ⟨hk, -⟩ := c.padded bs.length hle hpos
  rw [encodeGroup_eq_bytesOf]
  refine dataSymbols_bytesOf _ 0 _ _ hk (fun j hj => ?_) fun _ => ?_
  · rw [Nat.zero_add, encodedSymbol_data hj]
    exact c.symbol_ne_pad (symbolField_lt g bs j)
  · rw [Nat.zero_add, encodedSymbol_pad le_rfl]

/-- The data symbols carry the whole number of the group. -/
theorem Codec.foldl_encodedData :
    (encodedData g alph bs).foldl (fun v a => v * 2 ^ g.bits + (inverse alph a).toNat) 0 *
      2 ^ (g.bits * (g.symbols - dataCount g bs.length)) = groupValue g bs := by
  obtain ⟨hk, hbits, -⟩ := c.padded bs.length hle hpos
  have hdigit : ∀ j ∈ List.range (dataCount g bs.length),
      (inverse alph (encodedSymbol g alph bs (0 + j))).toNat * 2 ^ (g.bits * (g.symbols - 1 - j)) =
        groupValue g bs / (2 ^ g.bits) ^ (g.symbols - 1 - j) % 2 ^ g.bits * (2 ^ g.bits) ^ (g.symbols - 1 - j) :=
    fun j hj => by
      rw [Nat.zero_add, encodedSymbol_data (List.mem_range.1 hj), c.inverse_symbol (symbolField_lt g bs j),
        symbolField, ← pow_mul]
  have hdvd : (2 ^ g.bits) ^ (g.symbols - dataCount g bs.length) ∣ groupValue g bs := by
    have hle' : g.bits * (g.symbols - dataCount g bs.length) ≤ 8 * (g.bytes - bs.length) := by
      have hmul : 8 * bs.length ≤ g.bits * dataCount g bs.length := by omega
      rw [Nat.mul_sub, c.whole]
      omega
    rw [← pow_mul]
    exact Dvd.dvd.mul_left (pow_dvd_pow 2 hle') _
  rw [foldl_bytesOf g (inverse alph) _ 0 _ _ hk, List.map_congr_left hdigit, sum_digits_eq _ (c.groupValue_lt hle) hk,
    Nat.div_mul_cancel hdvd]

/-- A final group decodes to the bytes it encodes. -/
theorem Codec.decodeFinal_encodeGroup : decodeFinal g (inverse alph) (encodeGroup g alph bs) = .ok bs := by
  obtain ⟨-, hbits, hpadded⟩ := c.padded bs.length hle hpos
  have hdata := c.dataSymbols_encodeGroup hpos hle
  have hlen : (dataSymbols (encodeGroup g alph bs)).length = dataCount g bs.length := by rw [hdata, bytesOf_length]
  rw [decodeFinal_ok g (inverse alph) (encodeGroup g alph bs) (hdata ▸ c.encodedData_good) (by rwa [hlen])
    fun a ha => ?rest]
  case rest =>
    rw [hlen, encodeGroup_eq_bytesOf, bytesOf_drop] at ha
    obtain ⟨j, -, rfl⟩ := mem_bytesOf.1 ha
    exact .inl (encodedSymbol_pad (by omega))
  rw [hlen, hdata, c.foldl_encodedData hpos hle, hbits, groupValue, beBytes_beValue hle]

end

section
variable (hpos : 0 < bs.length) (hwhole : bs.length = g.bytes)
include hpos hwhole

/-- A group of whole length carries data in every symbol. -/
theorem Codec.dataCount_whole : dataCount g bs.length = g.symbols := by
  obtain ⟨hk, hbits, -⟩ := c.padded bs.length hwhole.le hpos
  refine le_antisymm hk (Nat.le_of_mul_le_mul_left ?_ c.bits_pos)
  rw [c.whole]
  omega

/-- A group before the final one decodes to the bytes it encodes. -/
theorem Codec.decodeFull_encodeGroup : decodeFull g (inverse alph) (encodeGroup g alph bs) = .ok bs := by
  have hcount := c.dataCount_whole hpos hwhole
  have hgroup : encodeGroup g alph bs = encodedData g alph bs := by rw [encodeGroup_eq_bytesOf, encodedData, hcount]
  have hnum := c.foldl_encodedData hpos hwhole.le
  rw [hcount, Nat.sub_self, Nat.mul_zero, pow_zero, Nat.mul_one] at hnum
  have hbytes := beBytes_beValue hwhole.le
  rw [hgroup, decodeFull_ok g (inverse alph) _ c.encodedData_good, hnum, groupValue]
  rw [← hwhole] at hbytes ⊢
  rw [hbytes]

end

end

/-! ### All groups -/

/-- What a group before the final one decodes to, if it does. -/
def decodedGroup (g : Geometry) (dmap : Byte → Byte) (t : List Byte) : List Byte :=
  (decodeFull g dmap t).toOption.getD []

theorem decodedGroup_eq {g : Geometry} {dmap : Byte → Byte} {t out : List Byte} (h : decodeFull g dmap t = .ok out) :
    decodedGroup g dmap t = out := by
  rw [decodedGroup, h]; rfl

/-- The groups of an encoding decode to the encoded bytes. -/
theorem Codec.decodeGroups_encodeGroups {g : Geometry} {alph : List Byte} (c : Codec g alph) (x : List Byte) :
    decodeGroups g (inverse alph) (groupsOf g.symbols (encodeGroups g alph x)) = .ok x := by
  rw [encodeGroups, groupsOf_flatMap c.symbols_pos _ _ fun _ _ => encodeGroup_length g alph _]
  by_cases hx : x = []
  · rw [hx]; rfl
  · obtain ⟨ts, t, hgroups, hts, ht, htle, hflat⟩ := exists_groupsOf c.bytes_pos x hx
    have hfull : ∀ u ∈ ts, decodeFull g (inverse alph) (encodeGroup g alph u) = .ok u := fun u hu =>
      c.decodeFull_encodeGroup (hts u hu ▸ c.bytes_pos) (hts u hu)
    have hfinal := c.decodeFinal_encodeGroup (List.length_pos_iff.2 ht) htle
    have hpieces : (ts.map (encodeGroup g alph)).map (decodedGroup g (inverse alph)) = ts := by
      rw [List.map_map]
      exact (List.map_congr_left fun u hu => decodedGroup_eq (hfull u hu)).trans (List.map_id' ts)
    rw [hgroups, List.map_append, List.map_singleton,
      decodeGroups_ok g (inverse alph) _ _ (decodedGroup g (inverse alph)) t
        (List.forall_mem_map.2 fun u hu => by rw [hfull u hu, decodedGroup_eq (hfull u hu)]) hfinal,
      List.flatMap_def, hpieces, hflat]

/-! ### Base32 (R129) -/

theorem codec_b32 {alph : List Byte} (hlen : alph.length = 32) (h : alph.Nodup ∧ padByte ∉ alph) :
    Codec b32Geometry alph where
  bytes_pos := by decide
  whole := by decide
  padded := by decide
  size := hlen
  size_lt := by decide
  nodup := h.1
  noPad := h.2

theorem b32DecLen_encLen (n : Nat) : b32DecLen (b32EncLen n) = (n + 4) / 5 * 5 := by
  rw [b32DecLen, b32EncLen_eq, Nat.mul_div_cancel _ (by decide)]

theorem le_b32DecLen_encLen (n : Nat) : n ≤ (n + 4) / 5 * 5 := by omega

/-- A base32 decode of an encoding gives the bytes back: the encoding is a whole number of groups. -/
theorem b32Decode_b32Encode {alph : List Byte} (c : Codec b32Geometry alph) (x : List Byte) :
    b32Decode alph (b32Encode alph x) = .ok x := by
  have hlen : (b32Encode alph x).length % 8 = 0 := by rw [b32Encode_length, b32EncLen_eq, Nat.mul_mod_left]
  rw [b32Decode, if_neg (not_not.2 hlen)]
  exact c.decodeGroups_encodeGroups x

theorem codec_b32Std : Codec b32Geometry b32StdAlph := codec_b32 b32StdAlph_length b32StdAlph_nodup_noPad

theorem codec_b32Hex : Codec b32Geometry b32HexAlph := codec_b32 b32HexAlph_length b32HexAlph_nodup_noPad

/-- Settles O37: the law of the geometry for both alphabets, and the lengths by arithmetic. -/
theorem base32RoundTrip : Obligations.Base32RoundTrip := by
  refine ⟨fun s => ⟨?_, ?_⟩, fun alph halph => ?_, fun n => ?_, fun m n hle => ?_⟩
  · exact roundTripAt_of_codec (decLen := b32DecLen) rfl (fun _ => rfl) (by simp [b32EncLen_eq]) (b32DecLen_encLen _)
      (le_b32DecLen_encLen _) (b32Decode_b32Encode codec_b32Std _)
  · exact roundTripAt_of_codec (decLen := b32DecLen) rfl (fun _ => rfl) (by simp [b32EncLen_eq]) (b32DecLen_encLen _)
      (le_b32DecLen_encLen _) (b32Decode_b32Encode codec_b32Hex _)
  · simp only [List.mem_cons, List.not_mem_nil, or_false] at halph
    obtain rfl | rfl := halph
    · exact b32Decode_b32Encode codec_b32Std
    · exact b32Decode_b32Encode codec_b32Hex
  · rw [b32DecLen_encLen]
    exact ⟨rfl, le_b32DecLen_encLen n⟩
  · rw [b32EncLen_eq, b32EncLen_eq]
    omega

/-! ### Base64 (R149) -/

theorem codec_b64 {alph : List Byte} (hlen : alph.length = 64) (h : alph.Nodup ∧ padByte ∉ alph) :
    Codec b64Geometry alph where
  bytes_pos := by decide
  whole := by decide
  padded := by decide
  size := hlen
  size_lt := by decide
  nodup := h.1
  noPad := h.2

theorem codec_b64Std : Codec b64Geometry b64StdAlph := codec_b64 b64StdAlph_length b64StdAlph_nodup_noPad

theorem codec_b64Url : Codec b64Geometry b64UrlAlph := codec_b64 b64UrlAlph_length b64UrlAlph_nodup_noPad

theorem b64DecLen_encLen (n : Nat) : b64DecLen (b64EncLen n) = (n + 2) / 3 * 3 := by
  rw [b64DecLen, b64EncLen_eq, Nat.mul_div_cancel _ (by decide)]

theorem le_b64DecLen_encLen (n : Nat) : n ≤ (n + 2) / 3 * 3 := by omega

/-- A base64 decode of a non-empty encoding gives the bytes back: the encoding is a positive whole number of groups. -/
theorem b64Decode_b64Encode {alph : List Byte} (c : Codec b64Geometry alph) {x : List Byte} (hx : x ≠ []) :
    b64Decode alph (b64Encode alph x) = .ok x := by
  have hpos := List.length_pos_iff.2 hx
  have hlen : ¬ ((b64Encode alph x).length = 0 ∨ (b64Encode alph x).length % 4 ≠ 0) := by
    rw [b64Encode_length, b64EncLen_eq]
    omega
  rw [b64Decode, if_neg hlen]
  exact c.decodeGroups_encodeGroups x

/-- Settles O41: the law of the geometry for both alphabets, and the lengths by arithmetic. -/
theorem base64RoundTrip : Obligations.Base64RoundTrip := by
  refine ⟨fun s hn => ?_, fun alph halph => ⟨?_, rfl, rfl⟩, fun n => ?_, fun m n hle => ?_⟩
  · have hbytes : s.srcBytes s.n ≠ [] := List.ne_nil_of_length_pos (by rwa [State.n_srcBytes_length])
    exact ⟨roundTripAt_of_codec (decLen := b64DecLen) rfl (fun _ => rfl) (by simp [b64EncLen_eq]) (b64DecLen_encLen _)
        (le_b64DecLen_encLen _) (b64Decode_b64Encode codec_b64Std hbytes),
      roundTripAt_of_codec (decLen := b64DecLen) rfl (fun _ => rfl) (by simp [b64EncLen_eq]) (b64DecLen_encLen _)
        (le_b64DecLen_encLen _) (b64Decode_b64Encode codec_b64Url hbytes)⟩
  · simp only [List.mem_cons, List.not_mem_nil, or_false] at halph
    obtain rfl | rfl := halph
    · exact fun _ => b64Decode_b64Encode codec_b64Std
    · exact fun _ => b64Decode_b64Encode codec_b64Url
  · rw [b64DecLen_encLen]
    exact ⟨rfl, le_b64DecLen_encLen n⟩
  · rw [b64EncLen_eq, b64EncLen_eq]
    omega

end Sys2Proof.Machine
end
